-- ==== Sys2Proof/Word.lean ====
section
/-! DEFINITION. The plain value types of the pattern engine block (PEB): masks, levels, directions and the
levels of the two input ports in one clock cycle. The block has no machine word: every quantity has the width
the state table of spec/10_state.md R21 gives it, and every one is unsigned (spec/00_scope.md R14). -/

namespace Sys2Proof

/-- A frame: bit `i` is the desired state of the line at logical position `i`, 1 = on (30_encoding.md R93). -/
abbrev Mask := BitVec 8

/-- The level of a one-bit line or of a one-bit register: `true` is high, written 1 (30_encoding.md R95). -/
abbrev Level := Bool

/-- The direction flags `BDIR` and `BRD` (30_encoding.md R94; `up` is encoded 0 and `down` 1, see `dirBit`). -/
inductive Dir where
  | up
  | down
deriving DecidableEq, Repr

/-- The levels of the input ports `btn` and `rst` in one clock cycle (20_memory.md R61). -/
structure Pins where
  btn : Level
  rst : Level
deriving DecidableEq, Repr

end Sys2Proof
end

