-- ==== Sys2Proof/Syntax.lean ====
section
/-! DEFINITION. The closed set of 19 operations (spec/00_scope.md R2), one constructor per row of
spec/opcode_table.json, with the operands of spec/30_encoding.md R103, and the two decode spaces of R90 to R92. -/

namespace Sys2Proof

/-- One constructor per row of spec/opcode_table.json, in the table's order. -/
inductive Instr where
  /-- `SAMPLE`, phase 0 (41_debouncer.md R152). -/
  | sample
  /-- `HOLD`, phase 1 (41_debouncer.md R153). -/
  | hold
  /-- `ADVANCE`, phase 2 (42_mode_counter.md R170). -/
  | advance
  /-- `SETTLE`, phase 3 (42_mode_counter.md R171). -/
  | settle
  /-- `RENDER`, phase 4 (44_dispatcher.md R190). -/
  | render
  /-- `FRAME`, phase 5 (44_dispatcher.md R193). -/
  | frame
  /-- `STEP.CW`, mode 0 (45_generators.md R204). -/
  | stepCw
  /-- `STEP.CCW`, mode 1 (45_generators.md R206). -/
  | stepCcw
  /-- `STEP.BLINK`, mode 2 (45_generators.md R210). -/
  | stepBlink
  /-- `STEP.PINSEQ`, mode 3 (45_generators.md R212). -/
  | stepPinseq
  /-- `STEP.BOUNCE`, mode 4 (45_generators.md R216). -/
  | stepBounce
  /-- `STEP.BINCNT`, mode 5 (45_generators.md R220). -/
  | stepBincnt
  /-- `STEP.LCG`, mode 6 (45_generators.md R224). -/
  | stepLcg
  /-- `STEP.BREATHE`, mode 7 (45_generators.md R228). -/
  | stepBreathe
  /-- `READ_BTN` (41_debouncer.md R150). -/
  | readBtn
  /-- `WRITE_ALL v` (43_output_bank.md R180). -/
  | writeAll (v : Mask)
  /-- `DELAY n`, `n` a natural number of delay ticks (40_sequencer.md R123). -/
  | delay (n : Nat)
  /-- `RESET`, performed while the `rst` pin is 1 (70_reset_and_hazards.md R260). -/
  | reset
  /-- `ITER b`, one loop iteration whose sample reads `b` (40_sequencer.md R125). -/
  | iter (b : Level)
deriving DecidableEq, Repr

/-- The two decode spaces: a 3-bit value is read as a value of `PH` or as a value of `MODE` (30_encoding.md R90,
R92). The third format of R91, `NONE`, has no selector and so is no decode space. -/
inductive Space where
  | phase
  | mode3
deriving DecidableEq, Repr

/-- The six phases of the loop (30_encoding.md R90). -/
inductive Phase where
  | sample
  | hold
  | advance
  | settle
  | render
  | frame
deriving DecidableEq, Repr

end Sys2Proof
end

