-- ==== Sys2Proof/Decode.lean ====
section
/-! DEFINITION. The two decode tables of spec/30_encoding.md (R90 on `PH[2:0]`, R92 on `MODE[2:0]`), the encoder
written from the same tables, and the host's view of a word of spec/opcode_table.json. The block fetches nothing
(00_scope.md R2): the "instruction word" is the 3-bit value of the phase register, or of the mode register inside a
`RENDER`. -/

namespace Sys2Proof

/-- Why a selector names no operation. -/
inductive Reject where
  /-- Phase codes 6 and 7 are reserved (30_encoding.md R100). -/
  | reservedPhase (code : BitVec 3)
deriving DecidableEq, Repr

/-- The phase space (30_encoding.md R90): six operations, 6 and 7 reserved (R100). -/
def decodePhase (ph : BitVec 3) : Except Reject Instr :=
  match ph with
  | 0b000 => .ok .sample
  | 0b001 => .ok .hold
  | 0b010 => .ok .advance
  | 0b011 => .ok .settle
  | 0b100 => .ok .render
  | 0b101 => .ok .frame
  | code => .error (.reservedPhase code)

/-- The mode space (30_encoding.md R92, 44_dispatcher.md R191): eight values, each selecting exactly one generator
step, with no hole and no default arm. The numbering is the spec's decision D9. -/
def modeTable : Vector Instr 8 :=
  #v[.stepCw, .stepCcw, .stepBlink, .stepPinseq, .stepBounce, .stepBincnt, .stepLcg, .stepBreathe]

/-- The generator step that the mode `m` selects. -/
def decodeMode (m : BitVec 3) : Instr := modeTable[m.toFin]

/-- The operation a 3-bit selector names in a decode space. -/
def decode (sp : Space) (w : BitVec 3) : Except Reject Instr :=
  match sp with
  | .phase => decodePhase w
  | .mode3 => .ok (decodeMode w)

/-- The value of `PH` in each phase (30_encoding.md R90; the numbering is the spec's decision D4). -/
def phaseCode : Phase → BitVec 3
  | .sample => 0
  | .hold => 1
  | .advance => 2
  | .settle => 3
  | .render => 4
  | .frame => 5

/-- The selector of an operation: its decode space and its value there. The five operations of format `NONE` have no
encoding of their own (30_encoding.md R91, R106), so they have none here. -/
def encode : Instr → Option (Space × BitVec 3)
  | .sample => some (.phase, phaseCode .sample)
  | .hold => some (.phase, phaseCode .hold)
  | .advance => some (.phase, phaseCode .advance)
  | .settle => some (.phase, phaseCode .settle)
  | .render => some (.phase, phaseCode .render)
  | .frame => some (.phase, phaseCode .frame)
  | .stepCw => some (.mode3, 0)
  | .stepCcw => some (.mode3, 1)
  | .stepBlink => some (.mode3, 2)
  | .stepPinseq => some (.mode3, 3)
  | .stepBounce => some (.mode3, 4)
  | .stepBincnt => some (.mode3, 5)
  | .stepLcg => some (.mode3, 6)
  | .stepBreathe => some (.mode3, 7)
  | .readBtn => none
  | .writeAll _ => none
  | .delay _ => none
  | .reset => none
  | .iter _ => none

/-- The decode space a bare table word is read in. The table numbers both spaces from 0 on the same three bits, so a
word alone does not say which space it belongs to: it is read as a phase, the selector a clock cycle fetches, and
only the two words that no phase has (6 and 7) are read as modes. Log entry 13. -/
def tableSpace (w : BitVec 3) : Space :=
  match decodePhase w with
  | .ok _ => .phase
  | .error _ => .mode3

/-- A word of spec/opcode_table.json as this decoder reads it. A selector has three bits, so a row of no bits (format
`NONE`) has no word, and neither has a number that does not fit. -/
def decodeTableWord (nbits w : Nat) : Option Instr :=
  if 3 ≤ nbits ∧ w < 8 then
    match decode (tableSpace (BitVec.ofNat 3 w)) (BitVec.ofNat 3 w) with
    | .ok i => some i
    | .error _ => none
  else none

end Sys2Proof
end

