-- ==== Sys2Proof/Config.lean ====
section
/-! DEFINITION. What one instance of the block fixes and the spec leaves open (spec/00_scope.md R10 to R13), and
the levels of the input ports in cycles for which no stimulus is given. Every constant here is opaque and has no
body, so a theorem about it holds for every value its type admits. The constraints the spec puts on a parameter
are in its type, and for `COMPASS` in `Config.admissible`. -/

namespace Sys2Proof

/-- `DLY_WIDTH` less one: any natural number, so that `DLY_WIDTH` is any positive one (00_scope.md R13). -/
opaque Config.dlyWidthLess1 : Nat

/-- `DLY_WIDTH`, the width in bits of the delay counter `DLY`: positive (00_scope.md R13). -/
abbrev Config.dlyWidth : Nat := Config.dlyWidthLess1 + 1

/-- `HOLD_TICKS`, the debounce hold: any natural number below `2 ^ DLY_WIDTH`, 0 included (00_scope.md R11, R12). -/
opaque Config.holdTicks : BitVec Config.dlyWidth

/-- `SETTLE_TICKS`, the settle delay after a mode advance: as `holdTicks` (00_scope.md R11, R12). -/
opaque Config.settleTicks : BitVec Config.dlyWidth

/-- `FRAME_TICKS[m]`, the inter-frame delay of the generator of mode `m`: eight independent values, no order
between them assumed (00_scope.md R11, R12). -/
opaque Config.frameTicks : BitVec 3 → BitVec Config.dlyWidth

/-- A permutation of 0..7 of which nothing is known: what `COMPASS` is made from. -/
opaque Config.compassSeed : Equiv.Perm (Fin 8)

/-- The admissible compass map a permutation stands for: itself, but for the identity, which 00_scope.md R10 excludes
and which stands for the exchange of 0 and 1. The values are exactly the bijections that are not the identity. Log
entry 10. -/
def Config.admissible (p : Equiv.Perm (Fin 8)) : Equiv.Perm (Fin 8) :=
  if p = Equiv.refl _ then Equiv.swap 0 1 else p

/-- `COMPASS[k]`: the logical position of the compass step `k`, 0 = N, 1 = NE and on to 7 = NW (00_scope.md R10,
30_encoding.md R96). Open: any bijection of 0..7 but the identity. -/
def Config.compass (k : Fin 8) : Fin 8 := Config.admissible Config.compassSeed k

/-- FREE VALUE. The level of `btn` in the cycle numbered `t`, where no stimulus gives it: the environment supplies it
and no rule constrains it (20_memory.md R62; 93_implementation_defined.md U8). Log entry 2. -/
opaque Config.freeBtn : Nat → Level

/-- FREE VALUE. The level of `rst` in the cycle numbered `t`, where no stimulus gives it (20_memory.md R61). Log
entry 2. -/
opaque Config.freeRst : Nat → Level

end Sys2Proof
end

