-- ==== Sys2Proof/Machine/State.lean ====
section
/-! DEFINITION. The state of the block: the tuple `(PREV, MODE, OUT, G[0..7], PH, DLY)` of spec/10_state.md R20, R21,
register by register at the widths given there; the model's own fields (the levels the input ports will show, the
number of the present cycle, the output trace, the value the last operation returned); and the reasons a step can
stop. The block has no memory (20_memory.md), so there is none here. -/

namespace Sys2Proof.Machine

/-- The generator state bank `G[0..7]` (10_state.md R29). -/
structure Bank where
  /-- G[0] `CWI`: the compass step of the line the next call lights (R31). -/
  cwi : BitVec 3
  /-- G[1] `CCI`: the compass step of the line the next call lights (R32). -/
  cci : BitVec 3
  /-- G[2] `BLK`: 1 when the most recent call turned all lines on (R33). -/
  blk : Bool
  /-- G[3] `PSI`: the logical position the next call lights (R34). -/
  psi : BitVec 3
  /-- G[4] `BPOS`: the logical position most recently yielded (R35). -/
  bpos : BitVec 3
  /-- G[4] `BDIR`: the direction of the next move (R35). -/
  bdir : Dir
  /-- G[5] `BCNT`: the binary counter (R36). -/
  bcnt : BitVec 8
  /-- G[6] `LCGS`: the state of the linear-congruential generator (R37). -/
  lcgs : BitVec 8
  /-- G[7] `BRC`: the on-count (R38). -/
  brc : BitVec 4
  /-- G[7] `BRD`: growing or shrinking (R38). -/
  brd : Dir
deriving DecidableEq, Repr

/-- What an operation hands back to whoever performed it (30_encoding.md R103, column "operands"): nothing, the 1-bit
`cur` of `READ_BTN` or `press` of `SAMPLE`, or the 8-bit mask of a `STEP`. -/
inductive Result where
  | none
  | bit (b : Bool)
  | mask (v : Mask)
deriving DecidableEq, Repr

/-- The state of the machine. The fields down to `dly` are the spec's (10_state.md R20, R21); the last four are the
model's own and stand for nothing inside the block. -/
structure State where
  /-- `PREV`: the level observed by the most recent `SAMPLE` (R23). -/
  prev : Level
  /-- `MODE`: the index of the active pattern (R25). -/
  mode : BitVec 3
  /-- `OUT`: the output bank register (R27). -/
  out : Mask
  /-- `G[0..7]` (R29). -/
  g : Bank
  /-- `PH`: the phase of the loop (R40). -/
  ph : BitVec 3
  /-- `DLY`: the delay ticks left (R42). -/
  dly : BitVec Config.dlyWidth
  /-- MODEL'S OWN. The levels the environment puts on `btn` and `rst` in the present cycle and the ones after it. When
  the list is used up the levels are free values. Log entries 1 and 2. -/
  stim : List Pins
  /-- MODEL'S OWN. The number of the present clock cycle: the index of the free values. Log entry 2. -/
  tick : Nat
  /-- MODEL'S OWN. The output trace: every value written to `OUT` by a `WRITE_ALL`, oldest first (20_memory.md R74).
  Log entry 4. -/
  trace : List Mask
  /-- MODEL'S OWN. The value the last operation returned. No operation reads it. Log entry 3. -/
  result : Result
deriving DecidableEq, Repr

/-- The set of exception causes is empty: no operation can fault (60_exceptions.md R240). So there is no fault reason
and no step ends in a fault. Safe: nothing is left out. -/
inductive Fault where
deriving DecidableEq, Repr

/-- Why a step or an operation has no meaning. -/
inductive Refusal where
  /-- An operation whose meaning is not written yet. Raised by `exec`'s arms only; at present by none. Safe. -/
  | notModelled (mnemonic : String)
  /-- Raised by `step` when `rst = 0` and `PH` holds a reserved code, 6 or 7: "`CYCLE` is not defined on them"
  (93_implementation_defined.md U12, treatment `refuse`). Safe: no transition is claimed. -/
  | reservedPhase (code : BitVec 3)
  /-- Raised by `STEP.BOUNCE`, and by a `RENDER` or `ITER` that would perform it, on `(BPOS, BDIR) = (7, up)` or
  `(0, down)`: "the spec assigns no meaning to it" (U13, treatment `refuse`). Safe. -/
  | bounceOutsideStateSpace
  /-- Raised by `STEP.BREATHE`, and by a `RENDER` or `ITER` that would perform it, on `BRC` in 9..15, `(8, up)` or
  `(0, down)`: "Not in the state space" (U14, treatment `refuse`). Safe. -/
  | breatheOutsideStateSpace
  /-- Raised by `DELAY n` with `n` not less than `2^DLY_WIDTH`: not an operand of the operation (40_sequencer.md R123).
  Safe. -/
  | delayOperandTooWide
deriving DecidableEq, Repr

/-- The fresh generator states (70_reset_and_hazards.md R260). -/
def Bank.reset : Bank where
  cwi := 0
  cci := 0
  blk := false
  psi := 0
  bpos := 0
  bdir := .up
  bcnt := 0x00
  lcgs := 123
  brc := 0
  brd := .up

/-- The machine right after reset (70_reset_and_hazards.md R260): every register of the spec at the value given there.
The model's own fields start empty (log entry 17). -/
def State.reset : State where
  prev := false
  mode := 0
  out := 0x00
  g := Bank.reset
  ph := 0
  dly := 0
  stim := []
  tick := 0
  trace := []
  result := .none

end Sys2Proof.Machine
end

