-- ==== Sys2Proof/Machine/Flags.lean ====
section
/-! DEFINITION. The 1-bit predicates and flag updates (spec/10_state.md R43: there is no condition-code register):
the rising edge, the debounce machine's derived state, the direction flags of the two sweeping generators and the
conditions that keep them in the state space. -/

namespace Sys2Proof.Machine

/-- `rising(prev, cur)`: 1 exactly when `prev = 0` and `cur = 1` (41_debouncer.md R151). -/
def rising (prev cur : Level) : Bool := !prev && cur

/-- The derived view `DBS`: DebounceHold exactly when `PH = HOLD`, Idle in every other phase (10_state.md R24). -/
def debounceHold (s : State) : Bool := s.ph == phaseCode .hold

/-- `BDIR` after the call that yields position `p`: down at 7, up at 0, else kept (45_generators.md R216). -/
def bounceDir (p : BitVec 3) (d : Dir) : Dir :=
  if p = 7 then .down else if p = 0 then .up else d

/-- `BRD` after the call that yields the count `c`: while growing it flips at `c >= 8`, while shrinking at `c <= 0`
(45_generators.md R228). -/
def breatheDir (c : BitVec 4) : Dir → Dir
  | .up => if 8 ≤ c then .down else .up
  | .down => if c ≤ 0 then .up else .down

/-- The bounce states of the state space: up implies `BPOS <= 6`, down implies `BPOS >= 1` (10_state.md R35). -/
def bounceInSpace (p : BitVec 3) : Dir → Bool
  | .up => decide (p ≤ 6)
  | .down => decide (1 ≤ p)

/-- The breathing states of the state space: `(0..7, up)` and `(1..8, down)` (10_state.md R38). -/
def breatheInSpace (c : BitVec 4) : Dir → Bool
  | .up => decide (c ≤ 7)
  | .down => decide (1 ≤ c) && decide (c ≤ 8)

end Sys2Proof.Machine
end

