-- ==== Sys2Proof/Machine/Operands.lean ====
section
/-! DEFINITION. Every form in which a value reaches an operation: the level read from a port, the masks assembled
from generator state (spec/30_encoding.md R99), the constants (R98), the delay operands (R107), and the entries of
the generator bank. -/

namespace Sys2Proof.Machine

/-- `1 << p`: the mask with only the line at logical position `p` on (00_scope.md R14). -/
def oneHot (p : BitVec 3) : Mask := 1#8 <<< p.toNat

/-- `ones(n)` for `n` in 0..8: `(1 << n) - 1` computed in 9 bits, so that `ones(8) = 0xFF` (00_scope.md R14). -/
def onesMask (n : BitVec 4) : Mask := ((1#9 <<< n.toNat) - 1#9).setWidth 8

/-- The mask that lights the compass step `k` under the map `compass` (30_encoding.md R96, R99). -/
def compassMask (compass : Fin 8 → Fin 8) (k : BitVec 3) : Mask := oneHot (BitVec.ofFin (compass k.toFin))

/-- The mask of `STEP.BLINK` for the new flag (30_encoding.md R97, R99). -/
def blinkMask (blk : Bool) : Mask := if blk then 0xFF else 0x00

/-- The encoding of a direction flag: up is 0, down is 1 (30_encoding.md R94). -/
def dirBit : Dir → BitVec 1
  | .up => 0
  | .down => 1

/-- The LCG multiplier `A` (30_encoding.md R98). -/
def lcgMultiplier : Nat := 1103515245

/-- The LCG increment `C` (30_encoding.md R98). -/
def lcgIncrement : Nat := 12345

/-- The LCG modulus `M` (30_encoding.md R98). -/
def lcgModulus : Nat := 256

/-- The next LCG state: product and sum exact, then reduced (45_generators.md R224). -/
def lcgNext (s : BitVec 8) : BitVec 8 :=
  BitVec.ofNat 8 ((lcgMultiplier * s.toNat + lcgIncrement) % lcgModulus)

/-- The all-off mask that `ADVANCE` writes (30_encoding.md R98). -/
def allOff : Mask := 0x00

/-- The levels of the input ports `k` cycles from now: the stimulus where it gives them, else free values (20_memory.md
R62: `btn` "is supplied by the environment and is not constrained by any rule"). -/
def pinsAt (s : State) (k : Nat) : Pins :=
  (s.stim[k]?).getD ⟨Config.freeBtn (s.tick + k), Config.freeRst (s.tick + k)⟩

/-- `btn_level()`: the level of the `btn` port in the present cycle, the only load of the block (20_memory.md R62). -/
def btnLevel (s : State) : Level := (pinsAt s 0).btn

/-- The level of the `rst` port in the present cycle (20_memory.md R61). -/
def rstLevel (s : State) : Level := (pinsAt s 0).rst

/-- The `out[7:0]` port equals the register `OUT` in every clock cycle (20_memory.md R64). -/
def outPort (s : State) : Mask := s.out

/-- One entry `G[m]` of the bank, as a value of its own. -/
inductive Entry where
  | cw (i : BitVec 3)
  | ccw (i : BitVec 3)
  | blink (b : Bool)
  | pinseq (i : BitVec 3)
  | bounce (p : BitVec 3) (d : Dir)
  | bincnt (n : BitVec 8)
  | lcg (n : BitVec 8)
  | breathe (c : BitVec 4) (d : Dir)
deriving DecidableEq, Repr

/-- `G[m]`: the state of the generator of mode `m` (10_state.md R29, 30_encoding.md R92). -/
def bankEntry (g : Bank) (m : BitVec 3) : Entry :=
  (#v[.cw g.cwi, .ccw g.cci, .blink g.blk, .pinseq g.psi, .bounce g.bpos g.bdir, .bincnt g.bcnt, .lcg g.lcgs,
    .breathe g.brc g.brd] : Vector Entry 8)[m.toFin]

end Sys2Proof.Machine
end

