-- ==== Sys2Proof/Machine/Ops.lean ====
section
/-! DEFINITION. The operations that the meanings share: writing the output bank, moving the sequencer, loading and
counting the delay counter, resetting, the end of a clock cycle, and the choice of the operation a cycle performs.
There is no exception to take and none to return from (spec/60_exceptions.md R240, R245, R246). -/

namespace Sys2Proof.Machine

/-- The outcome with its next state changed by `f`. -/
def mapNext (f : State → State) : Host.Outcome State Fault Refusal → Host.Outcome State Fault Refusal
  | .next s => .next (f s)
  | .fault r => .fault r
  | .refused r => .refused r

/-- Go on with `f` from the next state, if there is one. -/
def andThen (o : Host.Outcome State Fault Refusal) (f : State → Host.Outcome State Fault Refusal) :
    Host.Outcome State Fault Refusal :=
  match o with
  | .next s => f s
  | .fault r => .fault r
  | .refused r => .refused r

/-- `OUT <- v`, all 8 bits, the only store of the block, and one entry of the output trace even where `OUT` already
holds `v` (43_output_bank.md R180, 20_memory.md R74). -/
def writeOut (v : Mask) (s : State) : State := { s with out := v, trace := s.trace ++ [v] }

/-- The value an operation returns. -/
def returning (r : Result) (s : State) : State := { s with result := r }

/-- `PH <- p`. -/
def goTo (p : Phase) (s : State) : State := { s with ph := phaseCode p }

/-- `DLY <- n`. -/
def loadDelay (n : BitVec Config.dlyWidth) (s : State) : State := { s with dly := n }

/-- One cycle of a delay phase whose successor is `after`: leave when `DLY = 0`, else count down (40_sequencer.md
R124). -/
def delayCycle (after : Phase) (s : State) : State :=
  if s.dly = 0 then goTo after s else loadDelay (s.dly - 1) s

/-- The successor of a delay phase (40_sequencer.md R122); none for a value of `PH` that is no delay phase. -/
def delaySuccessor (ph : BitVec 3) : Option Phase :=
  if ph = phaseCode .hold then some .advance
  else if ph = phaseCode .settle then some .render
  else if ph = phaseCode .frame then some .sample
  else none

/-- `MODE <- (MODE + 1) mod 8` and `WRITE_ALL 0x00`: what `ADVANCE` does to the architectural state (42_mode_counter.md
R170). -/
def advanceMode (s : State) : State := writeOut allOff { s with mode := s.mode + 1 }

/-- Every register at its reset value (70_reset_and_hazards.md R260). The environment's levels and the trace of what
was written before are no registers and stay (log entry 7). -/
def resetRegisters (s : State) : State :=
  { State.reset with stim := s.stim, tick := s.tick, trace := s.trace }

/-- `n` clock cycles pass at the input ports: the levels given for them are used up. -/
def passCycles (n : Nat) (s : State) : State := { s with stim := s.stim.drop n, tick := s.tick + n }

/-- The operation a clock cycle performs: `RESET` while `rst = 1`, whatever the phase (70_reset_and_hazards.md R261);
else the operation of the phase (40_sequencer.md R122, 30_encoding.md R90). -/
def selected (s : State) : Except Reject Instr :=
  if rstLevel s then .ok .reset else decodePhase s.ph

/-- The name under which a cycle that selects no operation is refused. -/
def refusalOf : Reject → Refusal
  | .reservedPhase code => .reservedPhase code

/-- The selector value that `n` bits numbered as spec/opcode_table.json numbers them place where the next cycle finds
its operation: a phase code goes to `PH`; a mode goes to `MODE` with `PH = RENDER`, the operation that performs the
step of that mode. `rst` is 0 in that cycle, as the table's rows say; `btn` and all else is as it was. Log entry 14. -/
def placeSelector (sp : Space) (w : BitVec 3) (s : State) : State :=
  let quiet : State := { s with stim := ⟨btnLevel s, false⟩ :: s.stim.tail }
  match sp with
  | .phase => { quiet with ph := w }
  | .mode3 => { quiet with ph := phaseCode .render, mode := w }

end Sys2Proof.Machine
end

