-- ==== Sys2Proof/Machine/Debouncer.lean ====
section
/-! DEFINITION. The debounce state machine (spec/41_debouncer.md): `READ_BTN`, `SAMPLE`, `HOLD`. -/

namespace Sys2Proof.Machine

/-- `READ_BTN` (R150): the level of `btn` is the result; no state is written. -/
def execReadBtn (s : State) : Host.Outcome State Fault Refusal := .next (returning (.bit (btnLevel s)) s)

/-- `PREV <- cur`, with the press result of R151 returned (R152). -/
def recordSample (cur : Level) (s : State) : State :=
  returning (.bit (rising s.prev cur)) { s with prev := cur }

/-- `SAMPLE` (R152): one read, the comparison with the old `PREV`, and `PREV` written in every case. In the same cycle
a press loads `HOLD_TICKS` and goes to `HOLD`; no press goes to `RENDER` (40_sequencer.md R122). -/
def execSample (s : State) : Host.Outcome State Fault Refusal :=
  .next (if rising s.prev (btnLevel s) then goTo .hold (loadDelay Config.holdTicks (recordSample (btnLevel s) s))
    else goTo .render (recordSample (btnLevel s) s))

/-- `HOLD` (R153): one cycle of the debounce hold, which ends by going to `ADVANCE`. -/
def execHold (s : State) : Host.Outcome State Fault Refusal := .next (returning .none (delayCycle .advance s))

end Sys2Proof.Machine
end

