-- ==== Sys2Proof/Machine/Generators.lean ====
section
/-! DEFINITION. The eight pattern generators (spec/45_generators.md): each a function from the bank to the mask it
yields and the bank it leaves, and the operation `STEP.<G>` over it. A generator reads and writes its own entry only
(R200). A `STEP` alone writes its entry and hands its mask back; the `RENDER` that contains it writes the mask to
`OUT`. The dispatch table of spec/44_dispatcher.md R191 stands at the end. -/

namespace Sys2Proof.Machine

/-- `STEP.CW` (R204): yield the line at compass step `CWI`, then advance `CWI` modulo 8. -/
def genCw (compass : Fin 8 → Fin 8) (g : Bank) : Except Refusal (Mask × Bank) :=
  .ok (compassMask compass g.cwi, { g with cwi := g.cwi + 1 })

/-- `STEP.CCW` (R206): yield the line at compass step `CCI`, then step `CCI` back modulo 8. -/
def genCcw (compass : Fin 8 → Fin 8) (g : Bank) : Except Refusal (Mask × Bank) :=
  .ok (compassMask compass g.cci, { g with cci := g.cci - 1 })

/-- `STEP.BLINK` (R210): invert `BLK`, then yield all on or all off by the new flag. -/
def genBlink (g : Bank) : Except Refusal (Mask × Bank) :=
  .ok (blinkMask (!g.blk), { g with blk := !g.blk })

/-- `STEP.PINSEQ` (R212): yield the line at position `PSI`, then advance `PSI` modulo 8. -/
def genPinseq (g : Bank) : Except Refusal (Mask × Bank) :=
  .ok (oneHot g.psi, { g with psi := g.psi + 1 })

/-- The position the next call of the bounce scan moves to (R216). -/
def bounceNext (p : BitVec 3) : Dir → BitVec 3
  | .up => p + 1
  | .down => p - 1

/-- `STEP.BOUNCE` (R216): move, yield the new position, then decide the flip. On a state outside the state space the
spec assigns no meaning (93_implementation_defined.md U13). -/
def genBounce (g : Bank) : Except Refusal (Mask × Bank) :=
  if bounceInSpace g.bpos g.bdir then
    let p := bounceNext g.bpos g.bdir
    .ok (oneHot p, { g with bpos := p, bdir := bounceDir p g.bdir })
  else .error .bounceOutsideStateSpace

/-- `STEP.BINCNT` (R220): count up modulo 256 and yield the new value. -/
def genBincnt (g : Bank) : Except Refusal (Mask × Bank) :=
  .ok (g.bcnt + 1, { g with bcnt := g.bcnt + 1 })

/-- `STEP.LCG` (R224): advance the linear-congruential state and yield the new value. -/
def genLcg (g : Bank) : Except Refusal (Mask × Bank) :=
  .ok (lcgNext g.lcgs, { g with lcgs := lcgNext g.lcgs })

/-- The on-count of the next call of the breathing generator (R228). -/
def breatheNext (c : BitVec 4) : Dir → BitVec 4
  | .up => c + 1
  | .down => c - 1

/-- `STEP.BREATHE` (R228): grow or shrink the count, decide the flip, then yield the lowest `c` lines. On a state
outside the state space the spec assigns no meaning (93_implementation_defined.md U14). -/
def genBreathe (g : Bank) : Except Refusal (Mask × Bank) :=
  if breatheInSpace g.brc g.brd then
    let c := breatheNext g.brc g.brd
    .ok (onesMask c, { g with brc := c, brd := breatheDir c g.brd })
  else .error .breatheOutsideStateSpace

/-- A `STEP` performed by itself: the entry is written, the mask is the result, nothing else changes (R200). -/
def runStep (gen : Bank → Except Refusal (Mask × Bank)) (s : State) : Host.Outcome State Fault Refusal :=
  match gen s.g with
  | .ok (v, g) => .next (returning (.mask v) { s with g := g })
  | .error r => .refused r

/-- `STEP.CW` (R204). -/
def execStepCw (s : State) : Host.Outcome State Fault Refusal := runStep (genCw Config.compass) s

/-- `STEP.CCW` (R206). -/
def execStepCcw (s : State) : Host.Outcome State Fault Refusal := runStep (genCcw Config.compass) s

/-- `STEP.BLINK` (R210). -/
def execStepBlink (s : State) : Host.Outcome State Fault Refusal := runStep genBlink s

/-- `STEP.PINSEQ` (R212). -/
def execStepPinseq (s : State) : Host.Outcome State Fault Refusal := runStep genPinseq s

/-- `STEP.BOUNCE` (R216). -/
def execStepBounce (s : State) : Host.Outcome State Fault Refusal := runStep genBounce s

/-- `STEP.BINCNT` (R220). -/
def execStepBincnt (s : State) : Host.Outcome State Fault Refusal := runStep genBincnt s

/-- `STEP.LCG` (R224). -/
def execStepLcg (s : State) : Host.Outcome State Fault Refusal := runStep genLcg s

/-- `STEP.BREATHE` (R228). -/
def execStepBreathe (s : State) : Host.Outcome State Fault Refusal := runStep genBreathe s

/-- The dispatch table `STEP[0..7]` (44_dispatcher.md R191): a constant, closed and total. -/
def stepTable : Vector (Bank → Except Refusal (Mask × Bank)) 8 :=
  #v[genCw Config.compass, genCcw Config.compass, genBlink, genPinseq, genBounce, genBincnt, genLcg, genBreathe]

/-- The generator that the mode `m` selects. -/
def generatorOf (m : BitVec 3) : Bank → Except Refusal (Mask × Bank) := stepTable[m.toFin]

end Sys2Proof.Machine
end

