-- ==== Sys2Proof/Machine/Dispatcher.lean ====
section
/-! DEFINITION. The generator dispatcher (spec/44_dispatcher.md): `RENDER`, `FRAME`. -/

namespace Sys2Proof.Machine

/-- What `RENDER` does to the architectural state (R190): the one generator `MODE` selects is stepped once against its
own entry and its mask is written to `OUT`. -/
def renderFrame (s : State) : Except Refusal State :=
  match generatorOf s.mode s.g with
  | .ok (v, g) => .ok (writeOut v { s with g := g })
  | .error r => .error r

/-- `RENDER` (R190); in the same cycle `FRAME_TICKS[MODE]` is loaded and the sequencer goes to `FRAME` (40_sequencer.md
R122, where `MODE` is not changed by the cycle). -/
def execRender (s : State) : Host.Outcome State Fault Refusal :=
  match renderFrame s with
  | .ok t => .next (returning .none (goTo .frame (loadDelay (Config.frameTicks s.mode) t)))
  | .error r => .refused r

/-- `FRAME` (R193): one cycle of the inter-frame delay, which ends by going to `SAMPLE`. -/
def execFrame (s : State) : Host.Outcome State Fault Refusal := .next (returning .none (delayCycle .sample s))

end Sys2Proof.Machine
end

