-- ==== Sys2Proof/Machine/ModeCounter.lean ====
section
/-! DEFINITION. The pattern-mode cyclic counter (spec/42_mode_counter.md): `ADVANCE`, `SETTLE`. -/

namespace Sys2Proof.Machine

/-- `ADVANCE` (R170): `MODE` up by one modulo 8 and all lines off; in the same cycle `SETTLE_TICKS` is loaded and the
sequencer goes to `SETTLE` (40_sequencer.md R122). -/
def execAdvance (s : State) : Host.Outcome State Fault Refusal :=
  .next (returning .none (goTo .settle (loadDelay Config.settleTicks (advanceMode s))))

/-- `SETTLE` (R171): one cycle of the settle delay, which ends by going to `RENDER`. -/
def execSettle (s : State) : Host.Outcome State Fault Refusal := .next (returning .none (delayCycle .render s))

end Sys2Proof.Machine
end

