-- ==== Sys2Proof/Machine/OutputBank.lean ====
section
/-! DEFINITION. The 8-line output bank writer (spec/43_output_bank.md): `WRITE_ALL`. -/

namespace Sys2Proof.Machine

/-- `WRITE_ALL v` (R180): all 8 bits of `OUT` replaced in one step; the old value is not read. -/
def execWriteAll (v : Mask) (s : State) : Host.Outcome State Fault Refusal :=
  .next (returning .none (writeOut v s))

end Sys2Proof.Machine
end

