-- ==== Sys2Proof/Machine/Sequencer.lean ====
section
/-! DEFINITION. The operations that stand for more than one cycle and the reset: `DELAY` and `ITER` (spec/40_sequencer.md
R123 to R125) and `RESET` (spec/70_reset_and_hazards.md R260). -/

namespace Sys2Proof.Machine

/-- The cycles of a delay phase that has `n` ticks left and whose successor is `after`: a cycle for each tick and the one
that leaves (R124). `rst` is read in every one of them, and the first that has it at 1 performs `RESET` and ends the delay
there: nothing else cuts a delay short (20_memory.md R75, 70_reset_and_hazards.md R261). -/
def delayCycles (after : Phase) : Nat → State → State
  | 0, s => passCycles 1 (if rstLevel s then resetRegisters s else goTo after (loadDelay 0 s))
  | n + 1, s => if rstLevel s then passCycles 1 (resetRegisters s) else delayCycles after n (passCycles 1 s)

/-- `DELAY n` from beginning to end. In a delay phase it is that phase entered with `DLY = n`: `n + 1` clock cycles pass,
`DLY` ends at 0 and `PH` takes the successor (R123 cycle level, R124), unless a reset ends it early. In any other phase
only the operation level of R123 applies, where it is the identity and time does not exist. Log entry 6. -/
def blockingDelay (n : Nat) (s : State) : State :=
  match delaySuccessor s.ph with
  | some after => delayCycles after n s
  | none => s

/-- `DELAY n` (R123), for an operand that fits the delay counter. -/
def execDelay (n : Nat) (s : State) : Host.Outcome State Fault Refusal :=
  if n < 2 ^ Config.dlyWidth then .next (returning .none (blockingDelay n s)) else .refused .delayOperandTooWide

/-- `ITER b` (R125), at the operation level: the sample reads `b`; a press advances the mode and clears the lines; then
the frame of the mode is rendered. Every delay in it is the identity, so `PH` and `DLY` and the environment are not
touched. Log entry 5. -/
def execIter (b : Level) (s : State) : Host.Outcome State Fault Refusal :=
  let sampled := recordSample b s
  match renderFrame (if rising s.prev b then advanceMode sampled else sampled) with
  | .ok t => .next (returning .none t)
  | .error r => .refused r

/-- `RESET` (70_reset_and_hazards.md R260): every register at its reset value, from any state. -/
def execReset (s : State) : Host.Outcome State Fault Refusal := .next (resetRegisters s)

end Sys2Proof.Machine
end

