-- ==== Sys2Proof/Machine/Dispatch.lean ====
section
/-! DEFINITION. One arm per operation: each calls that operation's own meaning. -/

namespace Sys2Proof.Machine

def exec (i : Instr) (s : State) : Host.Outcome State Fault Refusal :=
  match i with
  -- the phase operations (30_encoding.md R90)
  | .sample => Sys2Proof.Machine.execSample s
  | .hold => Sys2Proof.Machine.execHold s
  | .advance => Sys2Proof.Machine.execAdvance s
  | .settle => Sys2Proof.Machine.execSettle s
  | .render => Sys2Proof.Machine.execRender s
  | .frame => Sys2Proof.Machine.execFrame s
  -- the generator steps (30_encoding.md R92)
  | .stepCw => Sys2Proof.Machine.execStepCw s
  | .stepCcw => Sys2Proof.Machine.execStepCcw s
  | .stepBlink => Sys2Proof.Machine.execStepBlink s
  | .stepPinseq => Sys2Proof.Machine.execStepPinseq s
  | .stepBounce => Sys2Proof.Machine.execStepBounce s
  | .stepBincnt => Sys2Proof.Machine.execStepBincnt s
  | .stepLcg => Sys2Proof.Machine.execStepLcg s
  | .stepBreathe => Sys2Proof.Machine.execStepBreathe s
  -- the operations of format NONE (30_encoding.md R91)
  | .readBtn => Sys2Proof.Machine.execReadBtn s
  | .writeAll v => Sys2Proof.Machine.execWriteAll v s
  | .delay n => Sys2Proof.Machine.execDelay n s
  | .reset => Sys2Proof.Machine.execReset s
  | .iter b => Sys2Proof.Machine.execIter b s

end Sys2Proof.Machine
end

