-- ==== Sys2Proof/Machine/Step.lean ====
section
/-! DEFINITION. One clock cycle: `CYCLE(s, btn, rst)` of spec/40_sequencer.md R122, with the levels of the two ports
taken from the state's stimulus. -/

namespace Sys2Proof.Machine

/-- One clock cycle: the operation the cycle selects is performed, and the cycle's port levels are used up. -/
def step (s : State) : Host.Outcome State Fault Refusal :=
  match selected s with
  | .ok i => mapNext (passCycles 1) (exec i s)
  | .error r => .refused (refusalOf r)

/-- `s` with the operation that the table word `w` of `nbits` bits names placed so that the very next step performs it
(see `placeSelector`); `s` itself where `decodeTableWord` reads no operation. -/
def State.withFetchWord (s : State) (nbits w : Nat) : State :=
  if (decodeTableWord nbits w).isSome then
    placeSelector (tableSpace (BitVec.ofNat 3 w)) (BitVec.ofNat 3 w) s
  else s

end Sys2Proof.Machine
end

