-- ==== Sys2Proof/Machine/Run.lean ====
section
/-! DEFINITION. Runs of the machine, in which rules about more than one step are stated: clock cycles, repeated calls
of one operation, and iterations over a stimulus string (spec/30_encoding.md R105). -/

namespace Sys2Proof.Machine

/-- `n` clock cycles. -/
def cycles : Nat → State → Host.Outcome State Fault Refusal
  | 0, s => .next s
  | n + 1, s => andThen (step s) (cycles n)

/-- One operation performed `n` times. -/
def execTimes (i : Instr) : Nat → State → Host.Outcome State Fault Refusal
  | 0, s => .next s
  | n + 1, s => andThen (exec i s) (execTimes i n)

/-- The mask an operation returned, if it returned one. -/
def maskOf : Result → List Mask
  | .none => []
  | .bit _ => []
  | .mask v => [v]

/-- The masks that `n` consecutive calls of the operation `i` yield, call 1 first (45_generators.md R200). -/
def yields (i : Instr) : Nat → State → List Mask
  | 0, _ => []
  | n + 1, s =>
    match exec i s with
    | .next t => maskOf t.result ++ yields i n t
    | .fault _ => []
    | .refused _ => []

/-- A stimulus string, one `ITER` per sampled level, first iteration first (30_encoding.md R105). -/
def iterAll : List Level → State → Host.Outcome State Fault Refusal
  | [], s => .next s
  | b :: bs, s => andThen (exec (.iter b) s) (iterAll bs)

/-- The number of indices `i` with `b(i-1) = 0` and `b(i) = 1`, `b0` being `prev` (41_debouncer.md R160). -/
def risingEdges : Level → List Level → Nat
  | _, [] => 0
  | prev, b :: bs => (rising prev b).toNat + risingEdges b bs

/-- The length in clock cycles of the iteration that starts in `s` and samples `b` (40_sequencer.md R127). -/
def iterLength (s : State) (b : Level) : Nat :=
  if rising s.prev b then
    Config.holdTicks.toNat + Config.settleTicks.toNat + (Config.frameTicks (s.mode + 1)).toNat + 6
  else (Config.frameTicks s.mode).toNat + 3

end Sys2Proof.Machine
end

