-- ==== Sys2Proof/Safety.lean ====
section
/-! DEFINITION. What claims about runs are stated with: the state space of the spec (spec/30_encoding.md R100, R101), the
invariant of the loop, the absence of a reset over a span of cycles, the reset within an operation, and the parts of two
states and of two outcomes that claims compare. -/

namespace Sys2Proof.Machine

/-- The states the spec calls its state space: `PH` in 0..5 and the invariants of the bounce scan and of the breathing
generator (10_state.md R35, R38, R40; 30_encoding.md R100, R101). -/
abbrev InSpace (s : State) : Prop :=
  s.ph ≤ 5 ∧ bounceInSpace s.g.bpos s.g.bdir = true ∧ breatheInSpace s.g.brc s.g.brd = true

/-- The invariant of the loop: a state of the state space in which `DLY` is 0 in the phases that do not delay, is at most
the parameter that was loaded in the phases that do, a press in progress shows in `PREV`, and the lines are off while a
mode advance settles. -/
abbrev LoopInv (s : State) : Prop :=
  InSpace s ∧
  (s.ph = phaseCode .sample → s.dly = 0) ∧
  (s.ph = phaseCode .hold → s.prev = true ∧ s.dly ≤ Config.holdTicks) ∧
  (s.ph = phaseCode .advance → s.prev = true ∧ s.dly = 0) ∧
  (s.ph = phaseCode .settle → s.prev = true ∧ s.out = 0x00 ∧ s.dly ≤ Config.settleTicks) ∧
  (s.ph = phaseCode .render → s.dly = 0) ∧
  (s.ph = phaseCode .frame → s.dly ≤ Config.frameTicks s.mode)

/-- `rst = 0` in the present cycle and the ones after it, `n` cycles in all. -/
def NoReset (s : State) (n : Nat) : Prop := ∀ k < n, (pinsAt s k).rst = false

/-- `PH` is one of the three phases that delay: `HOLD`, `SETTLE`, `FRAME` (40_sequencer.md R123). -/
abbrev InDelayPhase (s : State) : Prop := s.ph ∈ [phaseCode .hold, phaseCode .settle, phaseCode .frame]

/-- `rst = 1` in the `k`-th cycle from now, the present one being number 0, and in none before it. -/
abbrev FirstResetAt (s : State) (k : Nat) : Prop := NoReset s k ∧ (pinsAt s k).rst = true

/-- Performing `i` performs `RESET`: it is `RESET` itself, or a `DELAY` that a cycle with `rst = 1` ends early
(20_memory.md R75). -/
def PerformsReset (i : Instr) (s : State) : Prop :=
  i = .reset ∨ ∃ n, i = .delay n ∧ InDelayPhase s ∧ ¬ NoReset s (n + 1)

/-- The outcome with the levels still to come taken out: what is left to compare where two runs have other levels ahead
of them. -/
def forgetStim : Host.Outcome State Fault Refusal → Host.Outcome State Fault Refusal :=
  mapNext (fun t => { t with stim := [] })

/-- The two states have the same architectural state `(PREV, MODE, OUT, G)` (10_state.md R20). -/
abbrev SameArch (s t : State) : Prop := t.prev = s.prev ∧ t.mode = s.mode ∧ t.out = s.out ∧ t.g = s.g

/-- The two states have the same sequencer state `(PH, DLY)` (10_state.md R20). -/
abbrev SameSequencer (s t : State) : Prop := t.ph = s.ph ∧ t.dly = s.dly

/-- The input ports have the same levels before them, in the same cycle. -/
abbrev SameEnv (s t : State) : Prop := t.stim = s.stim ∧ t.tick = s.tick

/-- The line at logical position `i` is driven high (10_state.md R27). -/
abbrev lineOn (s : State) (i : Fin 8) : Bool := s.out.getLsb i

end Sys2Proof.Machine
end

