-- ==== Sys2Proof/WellFormed.lean ====
section
/-! DEFINITION. Which operations are well formed: the one operand whose type admits more values than the spec does
is the tick count of `DELAY`. -/

namespace Sys2Proof

/-- The operand of `DELAY` is "a natural number less than `2^DLY_WIDTH`" (40_sequencer.md R123). Every value of every
other operand type is legal: all 256 masks (30_encoding.md R93) and both levels (40_sequencer.md R125). -/
def Instr.wf : Instr → Bool
  | .delay n => decide (n < 2 ^ Config.dlyWidth)
  | .writeAll _ => true
  | .iter _ => true
  | .sample => true
  | .hold => true
  | .advance => true
  | .settle => true
  | .render => true
  | .frame => true
  | .stepCw => true
  | .stepCcw => true
  | .stepBlink => true
  | .stepPinseq => true
  | .stepBounce => true
  | .stepBincnt => true
  | .stepLcg => true
  | .stepBreathe => true
  | .readBtn => true
  | .reset => true

end Sys2Proof
end

