-- ==== Sys2Proof/Certificates/Slice0/Obligations.lean ====
section
/-! DEFINITION. What is claimed of the block, one proposition per claim, for the provers. Each docstring names the rule of
spec/ the claim formalises, and where a clause rests on a decision the spec marks as its own or on a choice of this
model it says so. -/

open Sys2Proof Sys2Proof.Machine

/-! ### Selectors and the cycle -/

/-- The two decode tables of 30_encoding.md section 1, every value of both. The numbering of the phases and of the modes is
the spec's own (decisions D4 and D9). -/
def Obligations.SelectorTablesNameTheirOperations : Prop :=
  decode .phase 0b000 = .ok .sample ∧ decode .phase 0b001 = .ok .hold ∧ decode .phase 0b010 = .ok .advance ∧
  decode .phase 0b011 = .ok .settle ∧ decode .phase 0b100 = .ok .render ∧ decode .phase 0b101 = .ok .frame ∧
  decode .phase 0b110 = .error (.reservedPhase 6) ∧ decode .phase 0b111 = .error (.reservedPhase 7) ∧
  decode .mode3 0b000 = .ok .stepCw ∧ decode .mode3 0b001 = .ok .stepCcw ∧ decode .mode3 0b010 = .ok .stepBlink ∧
  decode .mode3 0b011 = .ok .stepPinseq ∧ decode .mode3 0b100 = .ok .stepBounce ∧
  decode .mode3 0b101 = .ok .stepBincnt ∧ decode .mode3 0b110 = .ok .stepLcg ∧ decode .mode3 0b111 = .ok .stepBreathe

/-- Decoding and encoding agree in both directions, in both spaces (30_encoding.md section 1): a selector names an
operation exactly where that operation's selector is it. The five operations of format `NONE` have none. -/
def Obligations.EncodingAndDecodingAgree : Prop :=
  (∀ (i : Instr) (sp : Space) (w : BitVec 3), encode i = some (sp, w) ↔ decode sp w = .ok i) ∧
  (∀ i : Instr, encode i = none ↔
    i = .readBtn ∨ (∃ v, i = .writeAll v) ∨ (∃ n, i = .delay n) ∨ i = .reset ∨ ∃ b, i = .iter b)

/-- One clock cycle is the operation the phase names, or the reset while `rst` is 1, and after it the port levels of the
cycle are used up (40_sequencer.md section 2, `CYCLE`: the spec's decisions D1, D3, D4). How the port levels are held is
this model's choice (log entries 1 and 2). -/
def Obligations.CyclePerformsTheSelectedOperation : Prop :=
  ∀ s : State,
    (rstLevel s = true → step s = mapNext (passCycles 1) (exec .reset s)) ∧
    (rstLevel s = false → ∀ i, decode .phase s.ph = .ok i → step s = mapNext (passCycles 1) (exec i s)) ∧
    (passCycles 1 s = { s with stim := s.stim.tail, tick := s.tick + 1 })

/-- The control flow of the loop (40_sequencer.md sections 1, 2 and 4; the phases are the spec's decision D4, their order is
its reading, decision D21): the phase after a cycle without reset. The only branch on an input is in `SAMPLE`. A delay
phase stays while `DLY` is not 0 and leaves for its one successor at `DLY = 0` (section 2, the spec's decision D5); every
other phase has one successor. -/
def Obligations.PhasesFollowTheLoop : Prop :=
  ∀ s t : State, step s = .next t → rstLevel s = false →
    (s.ph = phaseCode .sample →
      t.ph = phaseCode (if s.prev = false ∧ btnLevel s = true then Phase.hold else Phase.render)) ∧
    (s.ph = phaseCode .hold → t.ph = if s.dly = 0 then phaseCode .advance else s.ph) ∧
    (s.ph = phaseCode .advance → t.ph = phaseCode .settle) ∧
    (s.ph = phaseCode .settle → t.ph = if s.dly = 0 then phaseCode .render else s.ph) ∧
    (s.ph = phaseCode .render → t.ph = phaseCode .frame) ∧
    (s.ph = phaseCode .frame → t.ph = if s.dly = 0 then phaseCode .sample else s.ph)

/-- A cycle with `rst = 0` and a reserved phase code is refused by name: `CYCLE` is not defined on `PH` 6 and 7
(93_implementation_defined.md U12, treatment `refuse`; log entry 8). -/
def Obligations.ReservedPhaseIsRefused : Prop :=
  ∀ s : State, rstLevel s = false → (s.ph = 6 ∨ s.ph = 7) → step s = .refused (.reservedPhase s.ph)

/-! ### Reset -/

/-- `RESET` writes every register the value of 70_reset_and_hazards.md R260, from any state, and these are the registers of
the state after reset. All but the LCG seed are the spec's decisions D4, D5, D10, D11, D12, D15. That the levels at the
ports and the trace of earlier writes stay is this model's choice (log entry 7). -/
def Obligations.ResetWritesEveryRegister : Prop :=
  (∀ s : State, exec .reset s = .next
    { prev := false, mode := 0, out := 0x00,
      g := { cwi := 0, cci := 0, blk := false, psi := 0, bpos := 0, bdir := .up, bcnt := 0x00, lcgs := 123, brc := 0,
             brd := .up },
      ph := phaseCode .sample, dly := 0, stim := s.stim, tick := s.tick, trace := s.trace, result := .none }) ∧
  ∀ s t : State, exec .reset s = .next t → SameArch State.reset t ∧ SameSequencer State.reset t

/-- The seed of the pseudo-random generator, the one reset value the source gives (10_state.md R37): after a reset, and in
the state after reset, `LCGS` is 123. -/
def Obligations.ResetSeedsTheLcgWith123 : Prop :=
  State.reset.g.lcgs = 0x7B ∧ ∀ s : State, ∃ t, exec .reset s = .next t ∧ t.g.lcgs.toNat = 123

/-- A cycle with `rst = 1` gives the reset state whatever the state is, a reserved phase code included, and while `rst`
stays 1 the block stays there with all lines off (70_reset_and_hazards.md section 1; the reset signal is the spec's
decision D3). Nothing is written to the output trace (log entry 7). -/
def Obligations.ResetPinHoldsTheResetState : Prop :=
  ∀ (n : Nat) (s : State), (∀ k < n + 1, (pinsAt s k).rst = true) →
    ∃ t, cycles (n + 1) s = .next t ∧ SameArch State.reset t ∧ SameSequencer State.reset t ∧ outPort t = 0x00 ∧
      t.trace = s.trace

/-! ### The debounce state machine -/

/-- The truth table of the rising edge (41_debouncer.md R151): for each of the four combinations of `PREV` and the level
read, the press result of `SAMPLE` and `PREV` after it. -/
def Obligations.PressFiresOnlyOnARisingEdge : Prop :=
  ∀ s : State, ∃ t, exec .sample s = .next t ∧
    (s.prev = false → btnLevel s = false → t.result = .bit false ∧ t.prev = false) ∧
    (s.prev = false → btnLevel s = true → t.result = .bit true ∧ t.prev = true) ∧
    (s.prev = true → btnLevel s = false → t.result = .bit false ∧ t.prev = false) ∧
    (s.prev = true → btnLevel s = true → t.result = .bit false ∧ t.prev = true)

/-- The whole cycle of `SAMPLE`: `PREV` takes the level read, a press loads `HOLD_TICKS` and goes to `HOLD`, no press (a
falling edge too) goes straight to `RENDER` with `DLY` as it was, and nothing else changes (41_debouncer.md section 1,
40_sequencer.md section 2; the spec's decisions D1, D4, D5, D17). The result field is this model's (log entry 3). -/
def Obligations.SampleCycleBranchesOnThePress : Prop :=
  ∀ s : State,
    (s.prev = false ∧ btnLevel s = true → exec .sample s = .next
      { s with prev := true, ph := 1, dly := Config.holdTicks, result := .bit true }) ∧
    (¬ (s.prev = false ∧ btnLevel s = true) → exec .sample s = .next
      { s with prev := btnLevel s, ph := 4, result := .bit false })

/-- `READ_BTN` returns the raw level and writes no state; it has no encoding of its own; the read inside `SAMPLE` is the
same one, and it is performed nowhere else: with other levels of `btn` ahead, in the present cycle or a later one, every
other operation does the same, and so does every clock cycle that is not a `SAMPLE` (41_debouncer.md R150). Where the
returned bit and the levels are held is this model's choice (log entries 1 and 3). -/
def Obligations.ReadBtnReturnsTheLevelAndWritesNothing : Prop :=
  encode .readBtn = none ∧ (∀ s : State, exec .readBtn s = .next { s with result := .bit (pinsAt s 0).btn }) ∧
  (∀ s t u : State, exec .readBtn s = .next t → exec .sample s = .next u → t.result = .bit u.prev) ∧
  ∀ (s : State) (stim' : List Pins), (∀ k, (pinsAt { s with stim := stim' } k).rst = (pinsAt s k).rst) →
    (∀ i : Instr, i ≠ .readBtn → i ≠ .sample →
      forgetStim (exec i { s with stim := stim' }) = forgetStim (exec i s)) ∧
    (s.ph ≠ phaseCode .sample → forgetStim (step { s with stim := stim' }) = forgetStim (step s))

/-! ### Delays -/

/-- One cycle of each delay phase (40_sequencer.md section 2, count semantics; the spec's decision D5): at `DLY = 0` the
phase ends, `PH` takes its successor and `DLY` stays 0; otherwise `DLY` is one less, without wrapping, and `PH` is
unchanged. Nothing else changes. -/
def Obligations.DelayCycleCountsDownOrEndsThePhase : Prop :=
  ∀ (s : State) (i : Instr) (after : Phase),
    (i, after) ∈ [(Instr.hold, Phase.advance), (Instr.settle, Phase.render), (Instr.frame, Phase.sample)] →
    (s.dly = 0 → exec i s = .next { s with ph := phaseCode after, result := .none }) ∧
    (s.dly ≠ 0 → ∃ d : BitVec Config.dlyWidth, d.toNat + 1 = s.dly.toNat ∧
      exec i s = .next { s with dly := d, result := .none })

/-- A delay phase entered with `DLY = n` lasts `n + 1` cycles (40_sequencer.md section 2, derived there): after `k` of the
first `n` cycles it is still the same phase with `DLY = n - k`, after `n + 1` it is the successor with `DLY = 0`. Through
all of it the architectural state and the output trace do not change, whatever `btn` does. -/
def Obligations.DelayPhaseLastsOneMoreThanLoaded : Prop :=
  ∀ (s : State) (now after : Phase),
    (now, after) ∈ [(Phase.hold, Phase.advance), (Phase.settle, Phase.render), (Phase.frame, Phase.sample)] →
    s.ph = phaseCode now → NoReset s (s.dly.toNat + 1) →
    (∀ k ≤ s.dly.toNat, ∃ t, cycles k s = .next t ∧ t.ph = s.ph ∧ t.dly.toNat = s.dly.toNat - k ∧ SameArch s t ∧
      t.trace = s.trace) ∧
    ∃ t, cycles (s.dly.toNat + 1) s = .next t ∧ t.ph = phaseCode after ∧ t.dly = 0 ∧ SameArch s t ∧ t.trace = s.trace

/-- `DELAY n` for an operand that fits the counter (40_sequencer.md section 2; the spec's decision D5): the architectural
state and the trace do not change; in a delay phase `n + 1` cycles pass, `DLY` ends at 0 and `PH` at the successor; in
any other phase it is the identity. Nothing but `RESET` cuts it short (20_memory.md section 8): where the first cycle with
`rst = 1` is one of its own, number `k`, `RESET` is performed in that cycle and the delay ends with it. An operand that
does not fit is refused. That the cycles pass in a delay phase only, what a reset leaves of the model's own fields, and
the refusal, are this model's choices (log entries 6, 7 and 16). -/
def Obligations.DelayWaitsAndChangesNoArchitecturalState : Prop :=
  ∀ (n : Nat) (s : State),
    (n < 2 ^ Config.dlyWidth →
      (¬ PerformsReset (.delay n) s → ∃ t, exec (.delay n) s = .next t ∧ SameArch s t ∧ t.trace = s.trace ∧
        t.result = .none ∧
        (s.ph = phaseCode .hold → t.ph = phaseCode .advance) ∧ (s.ph = phaseCode .settle → t.ph = phaseCode .render) ∧
        (s.ph = phaseCode .frame → t.ph = phaseCode .sample) ∧
        (InDelayPhase s → t.dly = 0 ∧ t.tick = s.tick + (n + 1) ∧ t.stim = s.stim.drop (n + 1)) ∧
        (¬ InDelayPhase s → SameSequencer s t ∧ SameEnv s t)) ∧
      (InDelayPhase s → ∀ k ≤ n, FirstResetAt s k → ∃ t, exec .reset s = .next t ∧
        exec (.delay n) s = .next { t with tick := s.tick + (k + 1), stim := s.stim.drop (k + 1) })) ∧
    (2 ^ Config.dlyWidth ≤ n → exec (.delay n) s = .refused .delayOperandTooWide)

/-- `DELAY n` in a delay phase that was loaded with `n` is exactly the cycles of that phase (40_sequencer.md section 2,
`DELAY` at the cycle level): the operation and the `n + 1` cycles give the same state, and where a reset ends the delay
early (20_memory.md section 8) the operation and the cycles up to that reset do. -/
def Obligations.DelayIsTheCyclesOfItsPhase : Prop :=
  ∀ s : State, InDelayPhase s →
    (NoReset s (s.dly.toNat + 1) → cycles (s.dly.toNat + 1) s = exec (.delay s.dly.toNat) s) ∧
    ∀ k ≤ s.dly.toNat, FirstResetAt s k → cycles (k + 1) s = exec (.delay s.dly.toNat) s

/-! ### The mode counter -/

/-- `ADVANCE` (42_mode_counter.md R170): `MODE` is one more modulo 8, all lines are off and the write counts as an output
event even where they were off already; in the same cycle `SETTLE_TICKS` is loaded and the phase is `SETTLE`. Nothing
else changes. It is performed in phase 2, which a cycle without reset enters from `HOLD` only. -/
def Obligations.AdvanceStepsTheModeAndBlanksTheLines : Prop :=
  encode .advance = some (.phase, 2) ∧
  (∀ s : State, ∃ m : BitVec 3, m.toNat = (s.mode.toNat + 1) % 8 ∧ exec .advance s = .next
    { s with mode := m, out := 0x00, trace := s.trace ++ [0x00], dly := Config.settleTicks, ph := phaseCode .settle,
             result := .none }) ∧
  ∀ s t : State, step s = .next t → rstLevel s = false → t.ph = phaseCode .advance → s.ph = phaseCode .hold

/-- `k` advances bring the mode back exactly where 8 divides `k` (42_mode_counter.md section on the wrap, derived there);
each writes the all-off mask once, and no generator moves. -/
def Obligations.ModeReturnsAfterMultiplesOfEightAdvances : Prop :=
  ∀ (k : Nat) (s : State), ∃ t, execTimes .advance k s = .next t ∧ (t.mode = s.mode ↔ 8 ∣ k) ∧ t.g = s.g ∧
    t.prev = s.prev ∧ t.trace = s.trace ++ List.replicate k 0x00

/-- `ADVANCE` touches no generator (42_mode_counter.md R174): it leaves the bank as it was and does not read it, for with
another bank it does the same to everything else; the settle delay after it leaves the bank too; and the `RENDER` that
follows steps the generator of the mode entered from the state it was left in. -/
def Obligations.AdvanceTouchesNoGenerator : Prop :=
  (∀ (s : State) (g' : Bank), ∃ t, exec .advance s = .next t ∧ t.g = s.g ∧
    exec .advance { s with g := g' } = .next { t with g := g' }) ∧
  (∀ s : State, ∃ t, exec .settle s = .next t ∧ t.g = s.g ∧ t.mode = s.mode) ∧
  ∀ s t u : State, exec .render s = .next t → exec (decodeMode s.mode) s = .next u →
    bankEntry t.g s.mode = bankEntry u.g s.mode

/-! ### The output bank -/

/-- `WRITE_ALL v` (43_output_bank.md R180): every line takes its bit of `v`, whatever it was; the write is one entry of the
output trace even where `OUT` held `v` already; the old `OUT` is not read; nothing else changes. It has no encoding of
its own: what `ADVANCE` does to `OUT` and the trace is `WRITE_ALL 0x00`, and what `RENDER` does to them is the
`WRITE_ALL` of the mask its generator yields. -/
def Obligations.WriteAllReplacesTheWholeMask : Prop :=
  (∀ v : Mask, encode (.writeAll v) = none) ∧
  (∀ (v : Mask) (s : State),
    exec (.writeAll v) s = .next { s with out := v, trace := s.trace ++ [v], result := .none } ∧
    ∀ (old : Mask) (t u : State), exec (.writeAll v) s = .next t → exec (.writeAll v) { s with out := old } = .next u →
      (∀ i : Fin 8, lineOn t i = v.getLsb i) ∧ t = u) ∧
  (∀ s t u : State, exec .advance s = .next t → exec (.writeAll 0x00) s = .next u →
    t.out = u.out ∧ t.trace = u.trace) ∧
  ∀ (s t u w : State) (v : Mask), exec (decodeMode s.mode) s = .next w → w.result = .mask v →
    exec .render s = .next t → exec (.writeAll v) s = .next u → t.out = u.out ∧ t.trace = u.trace

/-- "`WRITE_ALL` is the only way `OUT` changes other than `RESET`" (43_output_bank.md R181): whatever operation is
performed, `RESET` and a `DELAY` that a reset ends apart, `OUT` after it is the last value it appended to the output
trace, or what it was where it appended none; and the same holds of a clock cycle without reset. Every generator yields an 8-bit mask, and the `RENDER` of its mode writes
that mask as a whole. The trace is this model's field (log entry 4). -/
def Obligations.OutputChangesOnlyByWholeMaskWrites : Prop :=
  (∀ (i : Instr) (s t : State), exec i s = .next t → ¬ PerformsReset i s →
    ∃ ws : List Mask, t.trace = s.trace ++ ws ∧ t.out = ws.getLastD s.out) ∧
  (∀ s t : State, step s = .next t → rstLevel s = false →
    ∃ ws : List Mask, t.trace = s.trace ++ ws ∧ t.out = ws.getLastD s.out) ∧
  ∀ s t : State, exec (decodeMode s.mode) s = .next t →
    ∃ (v : Mask) (u : State), t.result = .mask v ∧ t.trace = s.trace ∧ exec .render s = .next u ∧ u.out = v ∧
      u.trace = s.trace ++ [v]

/-! ### Ownership -/

/-- Each register is written by one sub-block (10_state.md R22): which operations can change which register. `ITER` stands
for the `SAMPLE`, `ADVANCE` and `RENDER` it contains, and `DELAY` for the delay phases of the sequencer. `RESET` writes
all of them, and so does a `DELAY` that a reset ends. -/
def Obligations.EachRegisterHasOneWriter : Prop :=
  (∀ (i : Instr) (s t : State), exec i s = .next t → PerformsReset i s →
    SameArch State.reset t ∧ SameSequencer State.reset t) ∧
  ∀ (i : Instr) (s t : State), exec i s = .next t → ¬ PerformsReset i s →
    (t.prev ≠ s.prev → i = .sample ∨ ∃ b, i = .iter b) ∧
    (t.mode ≠ s.mode → i = .advance ∨ ∃ b, i = .iter b ∧ rising s.prev b = true) ∧
    (t.out ≠ s.out → (∃ v, i = .writeAll v) ∨ i = .advance ∨ i = .render ∨ ∃ b, i = .iter b) ∧
    (∀ m, bankEntry t.g m ≠ bankEntry s.g m →
      i = decodeMode m ∨ (i = .render ∧ s.mode = m) ∨ ∃ b, i = .iter b ∧ t.mode = m) ∧
    ((t.ph ≠ s.ph ∨ t.dly ≠ s.dly) →
      i ∈ [Instr.sample, .hold, .advance, .settle, .render, .frame] ∨ ∃ n, i = .delay n)

/-- Generator state survives mode switches (10_state.md R30): in a clock cycle without reset `G[m]` changes only in a
`RENDER` with `MODE = m`. -/
def Obligations.GeneratorChangesOnlyInARenderOfItsMode : Prop :=
  ∀ (s t : State) (m : BitVec 3), step s = .next t → rstLevel s = false →
    bankEntry t.g m ≠ bankEntry s.g m → s.ph = phaseCode .render ∧ s.mode = m

/-- No operation but `DELAY` touches the levels the environment will put on the input ports: they are inputs and no state
of the block (20_memory.md section 2). That `DELAY` uses them up is this model's choice (log entry 6). -/
def Obligations.OperationsLeaveTheInputPortsAlone : Prop :=
  ∀ (i : Instr) (s t : State), exec i s = .next t → (∀ n, i ≠ .delay n) → SameEnv s t

/-! ### The dispatcher -/

/-- `RENDER` (44_dispatcher.md R190): the one step that `MODE` selects is performed against its own entry and its mask is
written to `OUT`; in the same cycle `FRAME_TICKS[MODE]` is loaded and the phase is `FRAME`. `MODE`, `PREV` and the other
seven entries do not change; the other entries and the old `OUT` are not read. It is performed in phase 4, which a cycle
without reset enters from a `SAMPLE` without a press or from `SETTLE`. -/
def Obligations.RenderPerformsTheStepItsModeSelects : Prop :=
  encode .render = some (.phase, 4) ∧
  (∀ s t : State, step s = .next t → rstLevel s = false → t.ph = phaseCode .render →
    (s.ph = phaseCode .sample ∧ rising s.prev (btnLevel s) = false) ∨ s.ph = phaseCode .settle) ∧
  ∀ s : State, InSpace s → ∃ u v, exec (decodeMode s.mode) s = .next u ∧ u.result = .mask v ∧
    exec .render s = .next
      { s with g := u.g, out := v, trace := s.trace ++ [v], dly := Config.frameTicks s.mode, ph := phaseCode .frame,
               result := .none } ∧
    (∀ k, k ≠ s.mode → bankEntry u.g k = bankEntry s.g k) ∧
    ∀ (g' : Bank) (old : Mask), bankEntry g' s.mode = bankEntry s.g s.mode →
      ∃ t, exec .render { s with g := g', out := old } = .next t ∧ t.out = v ∧
        bankEntry t.g s.mode = bankEntry u.g s.mode

/-- The frame of an iteration and the entry it leaves depend on the entry of the mode alone: not on `PREV`, the old `OUT`,
the other entries, the delay counter, the inputs or the past (44_dispatcher.md R195 and 10_state.md section 5, derived
there). -/
def Obligations.FrameDependsOnlyOnTheSelectedEntry : Prop :=
  ∀ s s' : State, InSpace s → InSpace s' → s'.mode = s.mode → bankEntry s'.g s.mode = bankEntry s.g s.mode →
    ∃ t t', exec .render s = .next t ∧ exec .render s' = .next t' ∧ t'.out = t.out ∧
      bankEntry t'.g s.mode = bankEntry t.g s.mode ∧ ∀ k, k ≠ s.mode → bankEntry t'.g k = bankEntry s'.g k

/-! ### The generators -/

/-- `STEP.CW`, `STEP.CCW` and `STEP.PINSEQ` (45_generators.md sections 2, 3, 5; the spec's decisions D13, D14, D16): the
mask has exactly the line of the stored index on, found through `COMPASS` in the two rotations; then the index moves
one on, or one back, modulo 8. Nothing else changes. -/
def Obligations.RotationsLightTheStoredIndexThenMove : Prop :=
  ∀ s : State,
    (∃ v i, exec .stepCw s = .next { s with g := { s.g with cwi := i }, result := .mask v } ∧
      i.toNat = (s.g.cwi.toNat + 1) % 8 ∧ ∀ p : Fin 8, v.getLsb p = decide (p = Config.compass s.g.cwi.toFin)) ∧
    (∃ v i, exec .stepCcw s = .next { s with g := { s.g with cci := i }, result := .mask v } ∧
      i.toNat = (s.g.cci.toNat + 7) % 8 ∧ ∀ p : Fin 8, v.getLsb p = decide (p = Config.compass s.g.cci.toFin)) ∧
    (∃ v i, exec .stepPinseq s = .next { s with g := { s.g with psi := i }, result := .mask v } ∧
      i.toNat = (s.g.psi.toNat + 1) % 8 ∧ ∀ p : Fin 8, v.getLsb p = decide (p = s.g.psi.toFin))

/-- `STEP.BLINK` (45_generators.md section 4; the spec's decisions D15, D16): the flag is inverted, then the new flag shows
on all eight lines; two calls restore it. Nothing else changes. -/
def Obligations.BlinkInvertsTheFlagThenShowsIt : Prop :=
  ∀ s : State,
    (s.g.blk = false → exec .stepBlink s = .next { s with g := { s.g with blk := true }, result := .mask 0xFF }) ∧
    (s.g.blk = true → exec .stepBlink s = .next { s with g := { s.g with blk := false }, result := .mask 0x00 }) ∧
    ∃ t, execTimes .stepBlink 2 s = .next t ∧ t.g = s.g

/-- `STEP.BOUNCE` (45_generators.md section 6; the spec's decision D16): the position moves by one in the stored direction
without leaving 0..7, the new position is yielded, and the direction flips exactly in the call that reaches 7 or 0.
Nothing else changes. On the two states outside the state space the step is refused
(93_implementation_defined.md U13; log entry 9). -/
def Obligations.BounceMovesYieldsThenFlips : Prop :=
  ∀ s : State,
    (s.g.bdir = .up → s.g.bpos.toNat ≤ 6 → ∃ p : BitVec 3, p.toNat = s.g.bpos.toNat + 1 ∧ exec .stepBounce s = .next
      { s with g := { s.g with bpos := p, bdir := if p = 7 then .down else .up }, result := .mask (1#8 <<< p.toNat) }) ∧
    (s.g.bdir = .down → 1 ≤ s.g.bpos.toNat → ∃ p : BitVec 3, p.toNat + 1 = s.g.bpos.toNat ∧ exec .stepBounce s = .next
      { s with g := { s.g with bpos := p, bdir := if p = 0 then .up else .down }, result := .mask (1#8 <<< p.toNat) }) ∧
    (s.g.bdir = .up ∧ s.g.bpos = 7 ∨ s.g.bdir = .down ∧ s.g.bpos = 0 →
      exec .stepBounce s = .refused .bounceOutsideStateSpace)

/-- `STEP.BINCNT` (45_generators.md section 7; the spec's decision D16): the counter counts up modulo 256 and its new value
is the mask. Nothing else changes. -/
def Obligations.BinaryCounterShowsItsNewValue : Prop :=
  ∀ s : State, ∃ n : BitVec 8, n.toNat = (s.g.bcnt.toNat + 1) % 256 ∧
    exec .stepBincnt s = .next { s with g := { s.g with bcnt := n }, result := .mask n }

/-- `STEP.LCG` (45_generators.md R224): the state is multiplied by 1103515245 and 12345 is added, exactly, then it is
reduced modulo 256; the new state is the mask, and nothing else changes. From the fresh state the first three masks are
0x98, 0xF1, 0xD6, and the seed is not yielded before call 256. That call 256 yields it, and that in any 256 consecutive
calls from any state every mask is yielded exactly once, 0x00 and 0xFF among them, is the period of R226, which the spec
derives from R225 and so from R224. -/
def Obligations.LcgAdvancesByTheFormula : Prop :=
  (∀ s : State, ∃ n : BitVec 8, n.toNat = (s.g.lcgs.toNat * 1103515245 + 12345) % 256 ∧
    exec .stepLcg s = .next { s with g := { s.g with lcgs := n }, result := .mask n }) ∧
  yields .stepLcg 3 State.reset = [0x98, 0xF1, 0xD6] ∧
  (123 : Mask) ∉ yields .stepLcg 255 State.reset ∧ (yields .stepLcg 256 State.reset).getLast? = some 123 ∧
  ∀ (s : State) (v : Mask), (yields .stepLcg 256 s).count v = 1

/-- `STEP.BREATHE` (45_generators.md section 9; the spec's decision D16): the count moves by one in the stored direction
within 0..8, the direction flips exactly in the call that reaches 8 or 0, and the mask has the lines below the new count
on. Nothing else changes. On a state outside the state space the step is refused (93_implementation_defined.md U14; log
entry 9). -/
def Obligations.BreatheFillsToTheNewCount : Prop :=
  ∀ s : State,
    (s.g.brd = .up → s.g.brc.toNat ≤ 7 → ∃ (c : BitVec 4) (v : Mask), c.toNat = s.g.brc.toNat + 1 ∧
      (∀ p : Fin 8, v.getLsb p = decide (p.val < c.toNat)) ∧ exec .stepBreathe s = .next
        { s with g := { s.g with brc := c, brd := if c = 8 then .down else .up }, result := .mask v }) ∧
    (s.g.brd = .down → 1 ≤ s.g.brc.toNat → s.g.brc.toNat ≤ 8 → ∃ (c : BitVec 4) (v : Mask),
      c.toNat + 1 = s.g.brc.toNat ∧
      (∀ p : Fin 8, v.getLsb p = decide (p.val < c.toNat)) ∧ exec .stepBreathe s = .next
        { s with g := { s.g with brc := c, brd := if c = 0 then .up else .down }, result := .mask v }) ∧
    (8 < s.g.brc.toNat ∨ s.g.brd = .up ∧ s.g.brc = 8 ∨ s.g.brd = .down ∧ s.g.brc = 0 →
      exec .stepBreathe s = .refused .breatheOutsideStateSpace)

/-- The rotations from the fresh state (45_generators.md sections 2 and 3, derived there): call `n` of `STEP.CW` lights
compass step `(n - 1) mod 8` and call `n` of `STEP.CCW` compass step `(1 - n) mod 8`; in eight calls each line is lit
exactly once. -/
def Obligations.RotationsVisitTheCompassInOppositeOrders : Prop :=
  ∀ n : Nat,
    yields .stepCw n State.reset = (List.range n).map (fun k => 1#8 <<< (Config.compass (Fin.ofNat 8 k)).val) ∧
    yields .stepCcw n State.reset = (List.range n).map (fun k => 1#8 <<< (Config.compass (-(Fin.ofNat 8 k))).val) ∧
    ∀ p : Fin 8, (yields .stepCw 8 State.reset).count (1#8 <<< p.val) = 1

/-- The pin-order pattern is distinct from the clockwise one (45_generators.md section 5 and 00_scope.md section 4): from
the fresh state the first eight masks of the two differ in at least two places, and the pin-order masks are the
positions in ascending order. -/
def Obligations.PinOrderDiffersFromClockwiseInTwoPlaces : Prop :=
  yields .stepPinseq 9 State.reset = [0x01, 0x02, 0x04, 0x08, 0x10, 0x20, 0x40, 0x80, 0x01] ∧
  ∃ j k : Fin 8, j ≠ k ∧ (yields .stepCw 8 State.reset)[j.val]? ≠ (yields .stepPinseq 8 State.reset)[j.val]? ∧
    (yields .stepCw 8 State.reset)[k.val]? ≠ (yields .stepPinseq 8 State.reset)[k.val]?

/-- The bounce scan over whole periods (45_generators.md section 6, derived there): from the fresh state calls 1 to 15
yield positions 1..7, 6..0, 1; from every state of the state space 14 calls restore the generator, and among their masks
positions 1 to 6 stand twice each and 0 and 7 once each. -/
def Obligations.BounceVisitsEndpointsOncePerFourteenCalls : Prop :=
  yields .stepBounce 15 State.reset =
    [0x02, 0x04, 0x08, 0x10, 0x20, 0x40, 0x80, 0x40, 0x20, 0x10, 0x08, 0x04, 0x02, 0x01, 0x02] ∧
  ∀ s : State, bounceInSpace s.g.bpos s.g.bdir = true →
    (∃ t, execTimes .stepBounce 14 s = .next t ∧ t.g = s.g) ∧
    ∀ p : Fin 8, (yields .stepBounce 14 s).count (1#8 <<< p.val) = if p = 0 ∨ p = 7 then 1 else 2

/-- The binary counter over whole periods (45_generators.md section 7, derived there): from the fresh state call `n` yields
`n mod 256`, and 256 calls from any state restore the counter. -/
def Obligations.BinaryCounterYieldsTheCallNumber : Prop :=
  (∀ n : Nat, yields .stepBincnt n State.reset = (List.range n).map (fun k => BitVec.ofNat 8 (k + 1))) ∧
  ∀ s : State, ∃ t, execTimes .stepBincnt 256 s = .next t ∧ t.g = s.g

/-- The breathing generator over whole periods (45_generators.md section 9, derived there): from the fresh state calls 1
to 17 fill to 1..8, 7..0, 1 lines; from every state of the state space 16 calls restore the generator, and among their
masks the full and the empty one stand once each and every other count twice. -/
def Obligations.BreatheReachesItsEndsOncePerSixteenCalls : Prop :=
  yields .stepBreathe 17 State.reset =
    [0x01, 0x03, 0x07, 0x0F, 0x1F, 0x3F, 0x7F, 0xFF, 0x7F, 0x3F, 0x1F, 0x0F, 0x07, 0x03, 0x01, 0x00, 0x01] ∧
  ∀ s : State, breatheInSpace s.g.brc s.g.brd = true →
    (∃ t, execTimes .stepBreathe 16 s = .next t ∧ t.g = s.g) ∧
    ∀ c : Fin 9, (yields .stepBreathe 16 s).count (BitVec.ofNat 8 (2 ^ c.val - 1)) = if c = 0 ∨ c = 8 then 1 else 2

/-! ### Iterations and the agreement of the two levels -/

/-- `ITER b` (40_sequencer.md section 3, derived there): `PREV` takes `b`; a press advances the mode and writes the all-off
mask first; then the step of the mode so reached is performed and its mask written. The sequencer and the inputs are not
touched (log entry 5). -/
def Obligations.IterationFollowsItsPseudocode : Prop :=
  ∀ (b : Level) (s : State), InSpace s → ∀ (press : Bool) (m : BitVec 3),
    press = (!s.prev && b) → m = (if press then s.mode + 1 else s.mode) →
    ∃ u v, exec (decodeMode m) s = .next u ∧ u.result = .mask v ∧
      exec (.iter b) s = .next
        { s with prev := b, mode := m, g := u.g, out := v, result := .none,
                 trace := s.trace ++ (if press then [0x00, v] else [v]) }

/-- The cycle level agrees with the operation level (40_sequencer.md section 3, agreement of the two levels, derived
there): from a `SAMPLE` phase, the clock cycles of one iteration (its length is that of the same section) end in a
`SAMPLE` phase with `DLY = 0` and the architectural state, and the output trace, that `ITER` gives for the level of `btn`
in the first cycle. It holds for every value of the delay parameters and whatever `btn` does in the later cycles. That the
cycles use up the given port levels and count on is this model's (log entries 1 and 2). -/
def Obligations.CyclesOfAnIterationAgreeWithIter : Prop :=
  ∀ s : State, InSpace s → s.ph = phaseCode .sample → NoReset s (iterLength s (btnLevel s)) →
    ∃ t u, cycles (iterLength s (btnLevel s)) s = .next t ∧ exec (.iter (btnLevel s)) s = .next u ∧
      SameArch u t ∧ t.trace = u.trace ∧ t.ph = phaseCode .sample ∧ t.dly = 0 ∧
      t.stim = s.stim.drop (iterLength s (btnLevel s)) ∧ t.tick = s.tick + iterLength s (btnLevel s)

/-- What `out[7:0]` shows during an iteration (40_sequencer.md section 3; 42_mode_counter.md, the all-off frame between
patterns; 70_reset_and_hazards.md section 2, the lateness of a press; all derived there): the old mask up to the write of
`ADVANCE`, all off up to the write of `RENDER`, then the new mask. The counts rest on the spec's decisions D1, D5 and
D18. -/
def Obligations.OutPortShowsOldThenBlankThenNewFrame : Prop :=
  ∀ (s u : State) (k : Nat), InSpace s → s.ph = phaseCode .sample → k ≤ iterLength s (btnLevel s) → NoReset s k →
    exec (.iter (btnLevel s)) s = .next u →
    ∃ t, cycles k s = .next t ∧ outPort t =
      (if rising s.prev (btnLevel s) then
        (if k < Config.holdTicks.toNat + 3 then s.out
         else if k < Config.holdTicks.toNat + Config.settleTicks.toNat + 5 then 0x00 else u.out)
       else if k < 2 then s.out else u.out)

/-- The blackout (40_sequencer.md section 4 and 41_debouncer.md section 2, derived there): two runs of one iteration that
differ only in the levels of `btn` after the first cycle end in the same registers with the same output trace. -/
def Obligations.LaterButtonLevelsLeaveNoTrace : Prop :=
  ∀ (s : State) (stim' : List Pins), InSpace s → s.ph = phaseCode .sample →
    btnLevel { s with stim := stim' } = btnLevel s →
    NoReset s (iterLength s (btnLevel s)) → NoReset { s with stim := stim' } (iterLength s (btnLevel s)) →
    ∃ t t', cycles (iterLength s (btnLevel s)) s = .next t ∧
      cycles (iterLength s (btnLevel s)) { s with stim := stim' } = .next t' ∧
      SameArch t t' ∧ SameSequencer t t' ∧ t'.trace = t.trace

/-- The number of press events of a stimulus string is its number of rising edges, counted from `PREV`, and each advances
the mode once (41_debouncer.md section 2, derived there): from any state of the state space the mode ends that many
further on, modulo 8, and `PREV` is the last level. -/
def Obligations.PressesAdvanceTheModeOncePerRisingEdge : Prop :=
  ∀ (bs : List Level) (s : State), InSpace s → ∃ t, iterAll bs s = .next t ∧
    t.mode.toNat = (s.mode.toNat + risingEdges s.prev bs) % 8 ∧ t.prev = bs.getLastD s.prev

/-! ### Invariants -/

/-- The state after reset meets the invariant of the loop. -/
def Obligations.ResetStateMeetsTheLoopInvariant : Prop := LoopInv State.reset

/-- Every clock cycle, with or without reset, keeps the invariant of the loop: the state space of the spec (10_state.md
sections 5 and 6, 30_encoding.md section 4), `DLY` 0 outside the delays and within the loaded parameter inside them, the
lines off while a mode advance settles, `PREV` high while a press is handled. -/
def Obligations.EveryCycleKeepsTheLoopInvariant : Prop :=
  ∀ s t : State, LoopInv s → step s = .next t → LoopInv t

/-- The block has no failing operation (60_exceptions.md R240): there is no fault reason; every state of the state space
and every input has a next state, in the state space again; and so has every operation with a legal operand. -/
def Obligations.EveryStateAndInputHasANextState : Prop :=
  (∀ _ : Fault, False) ∧
  ∀ s : State, InSpace s →
    (∃ t, step s = .next t ∧ InSpace t) ∧ ∀ i : Instr, i.wf = true → ∃ t, exec i s = .next t ∧ InSpace t
end

