-- ==== Sys2Proof/Laws/Compass.lean ====
section
/-! SUPPORT. The compass map is exactly as open as spec/00_scope.md R10 leaves it. -/

namespace Sys2Proof

/-- The map is never the identity. -/
theorem Config.admissible_ne_refl (p : Equiv.Perm (Fin 8)) : Config.admissible p ≠ Equiv.refl _ := by
  unfold Config.admissible
  split
  · intro h
    have := congrArg (fun q : Equiv.Perm (Fin 8) => q 0) h
    exact absurd this (by decide)
  · assumption

/-- Every bijection but the identity is a value of the map. -/
theorem Config.admissible_of_ne {p : Equiv.Perm (Fin 8)} (h : p ≠ Equiv.refl _) : Config.admissible p = p :=
  if_neg h

theorem Config.compass_bijective : Function.Bijective Config.compass := (Config.admissible _).bijective

theorem Config.compass_ne_id : Config.compass ≠ id := by
  intro h
  exact Config.admissible_ne_refl Config.compassSeed (Equiv.ext fun k => congrFun h k)

end Sys2Proof
end

