-- ==== Sys2Proof/Laws/State.lean ====
section
/-! SUPPORT. One lemma per field per shared update of the state, each true by `rfl`: after these no proof unfolds a
record update. -/

namespace Sys2Proof.Machine

@[simp] theorem writeOut_prev (v : Mask) (s : State) : (writeOut v s).prev = s.prev := rfl
@[simp] theorem writeOut_mode (v : Mask) (s : State) : (writeOut v s).mode = s.mode := rfl
@[simp] theorem writeOut_out (v : Mask) (s : State) : (writeOut v s).out = v := rfl
@[simp] theorem writeOut_g (v : Mask) (s : State) : (writeOut v s).g = s.g := rfl
@[simp] theorem writeOut_ph (v : Mask) (s : State) : (writeOut v s).ph = s.ph := rfl
@[simp] theorem writeOut_dly (v : Mask) (s : State) : (writeOut v s).dly = s.dly := rfl
@[simp] theorem writeOut_stim (v : Mask) (s : State) : (writeOut v s).stim = s.stim := rfl
@[simp] theorem writeOut_tick (v : Mask) (s : State) : (writeOut v s).tick = s.tick := rfl
@[simp] theorem writeOut_trace (v : Mask) (s : State) : (writeOut v s).trace = s.trace ++ [v] := rfl
@[simp] theorem writeOut_result (v : Mask) (s : State) : (writeOut v s).result = s.result := rfl

@[simp] theorem returning_prev (r : Result) (s : State) : (returning r s).prev = s.prev := rfl
@[simp] theorem returning_mode (r : Result) (s : State) : (returning r s).mode = s.mode := rfl
@[simp] theorem returning_out (r : Result) (s : State) : (returning r s).out = s.out := rfl
@[simp] theorem returning_g (r : Result) (s : State) : (returning r s).g = s.g := rfl
@[simp] theorem returning_ph (r : Result) (s : State) : (returning r s).ph = s.ph := rfl
@[simp] theorem returning_dly (r : Result) (s : State) : (returning r s).dly = s.dly := rfl
@[simp] theorem returning_stim (r : Result) (s : State) : (returning r s).stim = s.stim := rfl
@[simp] theorem returning_tick (r : Result) (s : State) : (returning r s).tick = s.tick := rfl
@[simp] theorem returning_trace (r : Result) (s : State) : (returning r s).trace = s.trace := rfl
@[simp] theorem returning_result (r : Result) (s : State) : (returning r s).result = r := rfl

@[simp] theorem goTo_prev (p : Phase) (s : State) : (goTo p s).prev = s.prev := rfl
@[simp] theorem goTo_mode (p : Phase) (s : State) : (goTo p s).mode = s.mode := rfl
@[simp] theorem goTo_out (p : Phase) (s : State) : (goTo p s).out = s.out := rfl
@[simp] theorem goTo_g (p : Phase) (s : State) : (goTo p s).g = s.g := rfl
@[simp] theorem goTo_ph (p : Phase) (s : State) : (goTo p s).ph = phaseCode p := rfl
@[simp] theorem goTo_dly (p : Phase) (s : State) : (goTo p s).dly = s.dly := rfl
@[simp] theorem goTo_stim (p : Phase) (s : State) : (goTo p s).stim = s.stim := rfl
@[simp] theorem goTo_tick (p : Phase) (s : State) : (goTo p s).tick = s.tick := rfl
@[simp] theorem goTo_trace (p : Phase) (s : State) : (goTo p s).trace = s.trace := rfl
@[simp] theorem goTo_result (p : Phase) (s : State) : (goTo p s).result = s.result := rfl

@[simp] theorem loadDelay_prev (n : BitVec Config.dlyWidth) (s : State) : (loadDelay n s).prev = s.prev := rfl
@[simp] theorem loadDelay_mode (n : BitVec Config.dlyWidth) (s : State) : (loadDelay n s).mode = s.mode := rfl
@[simp] theorem loadDelay_out (n : BitVec Config.dlyWidth) (s : State) : (loadDelay n s).out = s.out := rfl
@[simp] theorem loadDelay_g (n : BitVec Config.dlyWidth) (s : State) : (loadDelay n s).g = s.g := rfl
@[simp] theorem loadDelay_ph (n : BitVec Config.dlyWidth) (s : State) : (loadDelay n s).ph = s.ph := rfl
@[simp] theorem loadDelay_dly (n : BitVec Config.dlyWidth) (s : State) : (loadDelay n s).dly = n := rfl
@[simp] theorem loadDelay_stim (n : BitVec Config.dlyWidth) (s : State) : (loadDelay n s).stim = s.stim := rfl
@[simp] theorem loadDelay_tick (n : BitVec Config.dlyWidth) (s : State) : (loadDelay n s).tick = s.tick := rfl
@[simp] theorem loadDelay_trace (n : BitVec Config.dlyWidth) (s : State) : (loadDelay n s).trace = s.trace := rfl
@[simp] theorem loadDelay_result (n : BitVec Config.dlyWidth) (s : State) : (loadDelay n s).result = s.result := rfl

@[simp] theorem passCycles_prev (n : Nat) (s : State) : (passCycles n s).prev = s.prev := rfl
@[simp] theorem passCycles_mode (n : Nat) (s : State) : (passCycles n s).mode = s.mode := rfl
@[simp] theorem passCycles_out (n : Nat) (s : State) : (passCycles n s).out = s.out := rfl
@[simp] theorem passCycles_g (n : Nat) (s : State) : (passCycles n s).g = s.g := rfl
@[simp] theorem passCycles_ph (n : Nat) (s : State) : (passCycles n s).ph = s.ph := rfl
@[simp] theorem passCycles_dly (n : Nat) (s : State) : (passCycles n s).dly = s.dly := rfl
@[simp] theorem passCycles_stim (n : Nat) (s : State) : (passCycles n s).stim = s.stim.drop n := rfl
@[simp] theorem passCycles_tick (n : Nat) (s : State) : (passCycles n s).tick = s.tick + n := rfl
@[simp] theorem passCycles_trace (n : Nat) (s : State) : (passCycles n s).trace = s.trace := rfl
@[simp] theorem passCycles_result (n : Nat) (s : State) : (passCycles n s).result = s.result := rfl

@[simp] theorem recordSample_prev (c : Level) (s : State) : (recordSample c s).prev = c := rfl
@[simp] theorem recordSample_mode (c : Level) (s : State) : (recordSample c s).mode = s.mode := rfl
@[simp] theorem recordSample_out (c : Level) (s : State) : (recordSample c s).out = s.out := rfl
@[simp] theorem recordSample_g (c : Level) (s : State) : (recordSample c s).g = s.g := rfl
@[simp] theorem recordSample_ph (c : Level) (s : State) : (recordSample c s).ph = s.ph := rfl
@[simp] theorem recordSample_dly (c : Level) (s : State) : (recordSample c s).dly = s.dly := rfl
@[simp] theorem recordSample_stim (c : Level) (s : State) : (recordSample c s).stim = s.stim := rfl
@[simp] theorem recordSample_tick (c : Level) (s : State) : (recordSample c s).tick = s.tick := rfl
@[simp] theorem recordSample_trace (c : Level) (s : State) : (recordSample c s).trace = s.trace := rfl
@[simp] theorem recordSample_result (c : Level) (s : State) : (recordSample c s).result = .bit (rising s.prev c) := rfl

@[simp] theorem advanceMode_prev (s : State) : (advanceMode s).prev = s.prev := rfl
@[simp] theorem advanceMode_mode (s : State) : (advanceMode s).mode = s.mode + 1 := rfl
@[simp] theorem advanceMode_out (s : State) : (advanceMode s).out = allOff := rfl
@[simp] theorem advanceMode_g (s : State) : (advanceMode s).g = s.g := rfl
@[simp] theorem advanceMode_ph (s : State) : (advanceMode s).ph = s.ph := rfl
@[simp] theorem advanceMode_dly (s : State) : (advanceMode s).dly = s.dly := rfl
@[simp] theorem advanceMode_stim (s : State) : (advanceMode s).stim = s.stim := rfl
@[simp] theorem advanceMode_tick (s : State) : (advanceMode s).tick = s.tick := rfl
@[simp] theorem advanceMode_trace (s : State) : (advanceMode s).trace = s.trace ++ [allOff] := rfl
@[simp] theorem advanceMode_result (s : State) : (advanceMode s).result = s.result := rfl

@[simp] theorem resetRegisters_prev (s : State) : (resetRegisters s).prev = false := rfl
@[simp] theorem resetRegisters_mode (s : State) : (resetRegisters s).mode = 0 := rfl
@[simp] theorem resetRegisters_out (s : State) : (resetRegisters s).out = 0 := rfl
@[simp] theorem resetRegisters_g (s : State) : (resetRegisters s).g = Bank.reset := rfl
@[simp] theorem resetRegisters_ph (s : State) : (resetRegisters s).ph = 0 := rfl
@[simp] theorem resetRegisters_dly (s : State) : (resetRegisters s).dly = 0 := rfl
@[simp] theorem resetRegisters_stim (s : State) : (resetRegisters s).stim = s.stim := rfl
@[simp] theorem resetRegisters_tick (s : State) : (resetRegisters s).tick = s.tick := rfl
@[simp] theorem resetRegisters_trace (s : State) : (resetRegisters s).trace = s.trace := rfl
@[simp] theorem resetRegisters_result (s : State) : (resetRegisters s).result = .none := rfl

end Sys2Proof.Machine
end

