-- ==== Sys2Proof/Laws/Ops.lean ====
section
/-! SUPPORT. One lemma for each shared operation that says everything it can do: sequencing of outcomes, the levels at
the ports, one cycle of a delay, a generator step, a rendered frame, and the cycle of each phase. -/

namespace Sys2Proof.Machine

/-! ### Outcomes -/

@[simp] theorem mapNext_next (f : State → State) (s : State) : mapNext f (.next s) = .next (f s) := rfl

@[simp] theorem andThen_next (s : State) (f : State → Host.Outcome State Fault Refusal) :
    andThen (.next s) f = f s := rfl

/-- `mapNext` answers a next state exactly where its argument does. -/
theorem mapNext_eq_next {f : State → State} {o : Host.Outcome State Fault Refusal} {t : State}
    (h : mapNext f o = .next t) : ∃ u, o = .next u ∧ t = f u := by
  cases o with
  | next u => exact ⟨u, rfl, by simpa [mapNext] using h.symm⟩
  | fault r => cases r
  | refused r => simp [mapNext] at h

/-- A sequence answers a next state exactly where both parts do. -/
theorem andThen_eq_next {o : Host.Outcome State Fault Refusal} {f : State → Host.Outcome State Fault Refusal}
    {t : State} (h : andThen o f = .next t) : ∃ u, o = .next u ∧ f u = .next t := by
  cases o with
  | next u => exact ⟨u, rfl, h⟩
  | fault r => cases r
  | refused r => simp [andThen] at h

/-! ### The input ports -/

/-- The levels `k` cycles after `n` cycles have passed are the levels `n + k` cycles from now. -/
theorem pinsAt_passCycles (n k : Nat) (s : State) : pinsAt (passCycles n s) k = pinsAt s (n + k) := by
  simp [pinsAt, Nat.add_assoc]

/-- The port levels depend on the stimulus and the cycle number only. -/
theorem pinsAt_congr {s t : State} (h : SameEnv s t) (k : Nat) : pinsAt t k = pinsAt s k := by
  simp [pinsAt, h.1, h.2]

theorem noReset_head {s : State} {n : Nat} (h : NoReset s (n + 1)) : rstLevel s = false := h 0 (Nat.succ_pos n)

/-- After one cycle of a span without reset, the rest of the span is without reset. -/
theorem noReset_passCycle {s t : State} {n : Nat} (h : NoReset s (n + 1)) (e : SameEnv (passCycles 1 s) t) :
    NoReset t n := by
  intro k hk
  rw [pinsAt_congr e, pinsAt_passCycles, Nat.add_comm]
  exact h (k + 1) (Nat.succ_lt_succ hk)

/-- A stimulus whose levels of `rst` are all 0 keeps reset away for as long as it lasts. -/
theorem noReset_of_stim {s : State} {n : Nat} (hlen : n ≤ s.stim.length) (h : ∀ p ∈ s.stim, p.rst = false) :
    NoReset s n := by
  intro k hk
  have hk' : k < s.stim.length := Nat.lt_of_lt_of_le hk hlen
  simp only [pinsAt, List.getElem?_eq_getElem hk', Option.getD_some]
  exact h _ (List.getElem_mem hk')

/-- A span of cycles without reset, or its first cycle with one. -/
theorem noReset_or_first (s : State) (n : Nat) : NoReset s n ∨ ∃ k < n, FirstResetAt s k := by
  induction n with
  | zero => exact .inl fun k hk => absurd hk (Nat.not_lt_zero k)
  | succ n ih =>
    rcases ih with h | ⟨k, hk, h⟩
    · cases hr : (pinsAt s n).rst with
      | true => exact .inr ⟨n, Nat.lt_succ_self n, h, hr⟩
      | false => exact .inl fun k hk => (Nat.lt_succ_iff_lt_or_eq.mp hk).elim (h k) fun e => e ▸ hr
    · exact .inr ⟨k, Nat.lt_succ_of_lt hk, h⟩

/-- Cycles that pass one after the other add up. -/
theorem passCycles_passCycles (m n : Nat) (s : State) : passCycles n (passCycles m s) = passCycles (m + n) s := by
  simp [passCycles, Nat.add_assoc]

/-! ### The delay counter -/

/-- Counting down never wraps, because it happens only above 0 (40_sequencer.md R124). -/
theorem dly_sub_one_toNat (d : BitVec Config.dlyWidth) (h : d ≠ 0) :
    (d - 1#Config.dlyWidth).toNat = d.toNat - 1 := by
  have hd : d.toNat ≠ 0 := fun h0 => h (BitVec.eq_of_toNat_eq (by simpa using h0))
  have hw : 1 % 2 ^ Config.dlyWidth = 1 :=
    Nat.mod_eq_of_lt (Nat.one_lt_two_pow (Nat.succ_ne_zero _))
  have h1 : (1#Config.dlyWidth).toNat = 1 := by simp [hw]
  rw [BitVec.toNat_sub_of_le (by rw [BitVec.le_def, h1]; omega), h1]

theorem dly_eq_zero_iff (d : BitVec Config.dlyWidth) : d = 0 ↔ d.toNat = 0 := by
  constructor
  · rintro rfl
    simp
  · intro h
    exact BitVec.eq_of_toNat_eq (by simpa using h)

/-- Everything one cycle of a delay phase can do (40_sequencer.md R124). -/
theorem delayCycle_cases (after : Phase) (s : State) :
    (s.dly = 0 ∧ delayCycle after s = goTo after s) ∨
    (s.dly ≠ 0 ∧ delayCycle after s = loadDelay (s.dly - 1) s) := by
  by_cases h : s.dly = 0
  · exact .inl ⟨h, if_pos h⟩
  · exact .inr ⟨h, if_neg h⟩

/-! ### The generators -/

/-- A statement about every mode is eight statements. -/
theorem forall_mode {P : BitVec 3 → Prop} (h : P 0 ∧ P 1 ∧ P 2 ∧ P 3 ∧ P 4 ∧ P 5 ∧ P 6 ∧ P 7) (m : BitVec 3) :
    P m := by
  have hm : m = 0 ∨ m = 1 ∨ m = 2 ∨ m = 3 ∨ m = 4 ∨ m = 5 ∨ m = 6 ∨ m = 7 := by
    revert m; decide
  obtain ⟨h0, h1, h2, h3, h4, h5, h6, h7⟩ := h
  rcases hm with rfl | rfl | rfl | rfl | rfl | rfl | rfl | rfl <;> assumption

/-- The generator a mode selects yields on every state of the state space (45_generators.md R201). -/
theorem generatorOf_ok (m : BitVec 3) (g : Bank) (hb : bounceInSpace g.bpos g.bdir = true)
    (hr : breatheInSpace g.brc g.brd = true) : ∃ v g', generatorOf m g = .ok (v, g') := by
  refine forall_mode (P := fun m => ∃ v g', generatorOf m g = .ok (v, g'))
    ⟨⟨_, _, rfl⟩, ⟨_, _, rfl⟩, ⟨_, _, rfl⟩, ⟨_, _, rfl⟩, ?_, ⟨_, _, rfl⟩, ⟨_, _, rfl⟩, ?_⟩ m
  · exact ⟨_, _, if_pos hb⟩
  · exact ⟨_, _, if_pos hr⟩

/-- The step operation of a mode is the step of the generator that `RENDER` runs in that mode (44_dispatcher.md
R191). -/
theorem exec_decodeMode (m : BitVec 3) (s : State) : exec (decodeMode m) s = runStep (generatorOf m) s :=
  forall_mode (P := fun m => exec (decodeMode m) s = runStep (generatorOf m) s)
    ⟨rfl, rfl, rfl, rfl, rfl, rfl, rfl, rfl⟩ m

/-- What a generator step does where it answers a next state: the bank and the returned mask change, nothing else. -/
theorem runStep_next {gen : Bank → Except Refusal (Mask × Bank)} {s t : State} (h : runStep gen s = .next t) :
    ∃ v g, gen s.g = .ok (v, g) ∧ t = { s with g := g, result := .mask v } := by
  unfold runStep at h
  split at h
  · rename_i v g e
    exact ⟨v, g, e, by simpa [returning] using h.symm⟩
  · simp at h

/-- What rendering does to the architectural state where it succeeds (44_dispatcher.md R190). -/
theorem renderFrame_ok {s t : State} (h : renderFrame s = .ok t) :
    ∃ v g, generatorOf s.mode s.g = .ok (v, g) ∧ t = { s with g := g, out := v, trace := s.trace ++ [v] } := by
  unfold renderFrame at h
  split at h
  · rename_i v g e
    exact ⟨v, g, e, by simpa [writeOut] using h.symm⟩
  · simp at h

/-! ### The cycle -/

/-- A cycle without reset performs the operation of the phase (40_sequencer.md R122). -/
theorem step_of_phase {s : State} {i : Instr} (hr : rstLevel s = false) (hp : decodePhase s.ph = .ok i) :
    step s = mapNext (passCycles 1) (exec i s) := by
  simp [step, selected, hr, hp]

/-- A cycle with reset performs the reset (70_reset_and_hazards.md R261). -/
theorem step_of_reset {s : State} (hr : rstLevel s = true) : step s = .next (passCycles 1 (resetRegisters s)) := by
  simp [step, selected, hr, exec, execReset]

/-- Everything a cycle can do where it answers a next state: a reset, or the operation of one of the six phases. -/
theorem step_cases {s t : State} (h : step s = .next t) :
    (rstLevel s = true ∧ t = passCycles 1 (resetRegisters s)) ∨
    (rstLevel s = false ∧ ∃ i u, decodePhase s.ph = .ok i ∧ exec i s = .next u ∧ t = passCycles 1 u) := by
  cases hr : rstLevel s with
  | true => exact .inl ⟨rfl, by simpa [step_of_reset hr] using h.symm⟩
  | false =>
    refine .inr ⟨rfl, ?_⟩
    cases hp : decodePhase s.ph with
    | error r => simp [step, selected, hr, hp] at h
    | ok i =>
      rw [step_of_phase hr hp] at h
      obtain ⟨u, hu, rfl⟩ := mapNext_eq_next h
      exact ⟨i, u, rfl, hu, rfl⟩

@[simp] theorem decodePhase_phaseCode_sample : decodePhase (phaseCode .sample) = .ok .sample := rfl
@[simp] theorem decodePhase_phaseCode_hold : decodePhase (phaseCode .hold) = .ok .hold := rfl
@[simp] theorem decodePhase_phaseCode_advance : decodePhase (phaseCode .advance) = .ok .advance := rfl
@[simp] theorem decodePhase_phaseCode_settle : decodePhase (phaseCode .settle) = .ok .settle := rfl
@[simp] theorem decodePhase_phaseCode_render : decodePhase (phaseCode .render) = .ok .render := rfl
@[simp] theorem decodePhase_phaseCode_frame : decodePhase (phaseCode .frame) = .ok .frame := rfl

/-- A phase whose operation is known has that operation's code: the phase space names each operation once. -/
theorem phase_of_decode {ph : BitVec 3} {i : Instr} (h : decodePhase ph = .ok i) : encode i = some (.phase, ph) := by
  revert i
  exact forall_mode (P := fun ph => ∀ {i}, decodePhase ph = .ok i → encode i = some (.phase, ph))
    (by
      refine ⟨?_, ?_, ?_, ?_, ?_, ?_, ?_, ?_⟩ <;> intro i h
      · cases h; rfl
      · cases h; rfl
      · cases h; rfl
      · cases h; rfl
      · cases h; rfl
      · cases h; rfl
      · exact nomatch h
      · exact nomatch h) ph

end Sys2Proof.Machine
end

