-- ==== Sys2Proof/Laws/Meanings.lean ====
section
/-! SUPPORT. What the meanings do, in closed form and by inversion, for proofs to cite instead of unfolding them; and what
a generator step keeps. -/

namespace Sys2Proof.Machine

/-! ### Closed forms: when the generator of the mode yields -/

/-- `STEP.<G>` of the mode `m` where its generator yields. -/
theorem exec_step_of {m : BitVec 3} {s : State} {v : Mask} {g : Bank} (h : generatorOf m s.g = .ok (v, g)) :
    exec (decodeMode m) s = .next { s with g := g, result := .mask v } := by
  rw [exec_decodeMode]
  simp [runStep, h, returning]

/-- `RENDER` where the generator of the mode yields. -/
theorem exec_render_of {s : State} {v : Mask} {g : Bank} (h : generatorOf s.mode s.g = .ok (v, g)) :
    exec .render s = .next
      { s with g := g, out := v, trace := s.trace ++ [v], dly := Config.frameTicks s.mode, ph := phaseCode .frame,
               result := .none } := by
  change execRender s = _
  simp [execRender, renderFrame, h, returning, goTo, loadDelay, writeOut]

/-- `ITER b` where the generator of the mode it renders yields (40_sequencer.md R125; that mode is `MODE'` there). -/
theorem exec_iter_of {b : Level} {s : State} {v : Mask} {g : Bank}
    (h : generatorOf (if rising s.prev b then s.mode + 1 else s.mode) s.g = .ok (v, g)) :
    exec (.iter b) s = .next
      { s with prev := b, mode := if rising s.prev b then s.mode + 1 else s.mode, g := g, out := v,
               trace := s.trace ++ (if rising s.prev b then [0, v] else [v]), result := .none } := by
  change execIter b s = _
  unfold execIter
  cases hb : rising s.prev b <;> simp [hb] at h ⊢
  · simp [renderFrame, h, returning, recordSample, writeOut]
  · simp [renderFrame, h, returning, recordSample, advanceMode, writeOut, allOff]

/-! ### Inversion: everything an operation did where it answered a next state -/

theorem exec_step_next {m : BitVec 3} {s t : State} (h : exec (decodeMode m) s = .next t) :
    ∃ v g, generatorOf m s.g = .ok (v, g) ∧ t = { s with g := g, result := .mask v } :=
  runStep_next (exec_decodeMode m s ▸ h)

theorem exec_render_next {s t : State} (h : exec .render s = .next t) :
    ∃ v g, generatorOf s.mode s.g = .ok (v, g) ∧ t =
      { s with g := g, out := v, trace := s.trace ++ [v], dly := Config.frameTicks s.mode, ph := phaseCode .frame,
               result := .none } := by
  change execRender s = _ at h
  unfold execRender at h
  split at h
  · rename_i u e
    obtain ⟨v, g, hg, rfl⟩ := renderFrame_ok e
    exact ⟨v, g, hg, by simpa [returning, goTo, loadDelay] using h.symm⟩
  · simp at h

theorem exec_iter_next {b : Level} {s t : State} (h : exec (.iter b) s = .next t) :
    ∃ v g, generatorOf (if rising s.prev b then s.mode + 1 else s.mode) s.g = .ok (v, g) ∧ t =
      { s with prev := b, mode := if rising s.prev b then s.mode + 1 else s.mode, g := g, out := v,
               trace := s.trace ++ (if rising s.prev b then [0, v] else [v]), result := .none } := by
  change execIter b s = _ at h
  unfold execIter at h
  simp only at h
  split at h
  · rename_i u e
    obtain ⟨v, g, hg, rfl⟩ := renderFrame_ok e
    cases hb : rising s.prev b <;> simp [hb] at hg h ⊢
    · exact ⟨v, g, hg, by simpa [returning, recordSample] using h.symm⟩
    · exact ⟨v, g, hg, by simpa [returning, recordSample, advanceMode, writeOut, allOff] using h.symm⟩
  · simp at h

theorem exec_delay_next {n : Nat} {s t : State} (h : exec (.delay n) s = .next t) :
    n < 2 ^ Config.dlyWidth ∧ t = returning .none (blockingDelay n s) := by
  change execDelay n s = _ at h
  unfold execDelay at h
  split at h
  · exact ⟨‹_›, by simpa using h.symm⟩
  · simp at h

/-- One cycle of a delay leaves the architectural state and the trace. -/
theorem delayCycle_frame (after : Phase) (s : State) : SameArch s (delayCycle after s) ∧
    (delayCycle after s).trace = s.trace ∧ SameEnv s (delayCycle after s) := by
  rcases delayCycle_cases after s with ⟨_, h⟩ | ⟨_, h⟩ <;> rw [h] <;> exact ⟨⟨rfl, rfl, rfl, rfl⟩, rfl, rfl, rfl⟩

/-- The phases that have a delay successor are the three delay phases. -/
theorem delaySuccessor_eq_none {s : State} : delaySuccessor s.ph = none ↔ ¬ InDelayPhase s := by
  simp only [delaySuccessor, InDelayPhase, List.mem_cons, List.not_mem_nil, or_false]
  split_ifs <;> simp_all

/-- A delay without reset takes a cycle for each tick and one more, and leaves for the successor (40_sequencer.md R124). -/
theorem delayCycles_noReset (after : Phase) {n : Nat} {s : State} (h : NoReset s (n + 1)) :
    delayCycles after n s = passCycles (n + 1) (goTo after (loadDelay 0 s)) := by
  induction n generalizing s with
  | zero => simp [delayCycles, noReset_head h]
  | succ n ih =>
    rw [delayCycles, if_neg (by simp [noReset_head h]), ih (noReset_passCycle h ⟨rfl, rfl⟩), Nat.add_comm (n + 1) 1]
    exact passCycles_passCycles 1 (n + 1) (goTo after (loadDelay 0 s))

/-- A delay is ended by its first cycle with `rst = 1`, which performs `RESET` (20_memory.md R75). -/
theorem delayCycles_reset (after : Phase) {n k : Nat} {s : State} (hk : k ≤ n) (h : FirstResetAt s k) :
    delayCycles after n s = passCycles (k + 1) (resetRegisters s) := by
  induction k generalizing n s with
  | zero =>
    have hr : rstLevel s = true := h.2
    cases n <;> simp [delayCycles, hr]
  | succ k ih =>
    obtain ⟨n, rfl⟩ : ∃ m, n = m + 1 := ⟨n - 1, by omega⟩
    have hf : FirstResetAt (passCycles 1 s) k :=
      ⟨noReset_passCycle h.1 ⟨rfl, rfl⟩, by rw [pinsAt_passCycles, Nat.add_comm]; exact h.2⟩
    rw [delayCycles, if_neg (by simp [noReset_head h.1]), ih (by omega) hf, Nat.add_comm (k + 1) 1]
    exact passCycles_passCycles 1 (k + 1) (resetRegisters s)

/-- Everything `DELAY n` can do to the state: the identity where no phase delays; the whole wait; or the wait up to the
first reset, which is performed. -/
theorem blockingDelay_cases (n : Nat) (s : State) :
    (¬ InDelayPhase s ∧ blockingDelay n s = s) ∨
    (InDelayPhase s ∧ NoReset s (n + 1) ∧ ∃ after, delaySuccessor s.ph = some after ∧
      blockingDelay n s = passCycles (n + 1) (goTo after (loadDelay 0 s))) ∨
    (InDelayPhase s ∧ ∃ k ≤ n, FirstResetAt s k ∧ blockingDelay n s = passCycles (k + 1) (resetRegisters s)) := by
  unfold blockingDelay
  cases hd : delaySuccessor s.ph with
  | none => exact .inl ⟨delaySuccessor_eq_none.mp hd, rfl⟩
  | some after =>
    have hp : InDelayPhase s := by
      by_contra h
      simp [delaySuccessor_eq_none.mpr h] at hd
    rcases noReset_or_first s (n + 1) with h | ⟨k, hk, h⟩
    · exact .inr (.inl ⟨hp, h, after, rfl, delayCycles_noReset after h⟩)
    · exact .inr (.inr ⟨hp, k, Nat.lt_succ_iff.mp hk, h, delayCycles_reset after (Nat.lt_succ_iff.mp hk) h⟩)

/-- A delay that no reset ends leaves the architectural state and the trace (40_sequencer.md R123). -/
theorem blockingDelay_frame {n : Nat} {s : State} (h : ¬ PerformsReset (.delay n) s) :
    SameArch s (blockingDelay n s) ∧ (blockingDelay n s).trace = s.trace := by
  rcases blockingDelay_cases n s with ⟨_, e⟩ | ⟨_, _, _, _, e⟩ | ⟨hp, k, hk, hf, _⟩
  · rw [e]; exact ⟨⟨rfl, rfl, rfl, rfl⟩, rfl⟩
  · rw [e]; exact ⟨⟨rfl, rfl, rfl, rfl⟩, rfl⟩
  · exact absurd (.inr ⟨n, rfl, hp, fun hn => absurd ((hn k (Nat.lt_succ_of_le hk)).symm.trans hf.2) Bool.false_ne_true⟩) h

/-! ### What a generator step keeps -/

theorem mode_cases (k : BitVec 3) : k = 0 ∨ k = 1 ∨ k = 2 ∨ k = 3 ∨ k = 4 ∨ k = 5 ∨ k = 6 ∨ k = 7 :=
  forall_mode (P := fun k => k = 0 ∨ k = 1 ∨ k = 2 ∨ k = 3 ∨ k = 4 ∨ k = 5 ∨ k = 6 ∨ k = 7) (by simp) k

/-- The generator of each mode, by name (44_dispatcher.md R191). -/
theorem generatorOf_table : generatorOf 0 = genCw Config.compass ∧ generatorOf 1 = genCcw Config.compass ∧
    generatorOf 2 = genBlink ∧ generatorOf 3 = genPinseq ∧ generatorOf 4 = genBounce ∧ generatorOf 5 = genBincnt ∧
    generatorOf 6 = genLcg ∧ generatorOf 7 = genBreathe := ⟨rfl, rfl, rfl, rfl, rfl, rfl, rfl, rfl⟩

/-- A generator writes its own entry only (45_generators.md R200). -/
theorem generatorOf_keeps_others {m : BitVec 3} {g g' : Bank} {v : Mask} (h : generatorOf m g = .ok (v, g'))
    {k : BitVec 3} (hk : k ≠ m) : bankEntry g' k = bankEntry g k := by
  obtain ⟨e0, e1, e2, e3, e4, e5, e6, e7⟩ := generatorOf_table
  rcases mode_cases m with rfl | rfl | rfl | rfl | rfl | rfl | rfl | rfl <;>
    simp only [e0, e1, e2, e3, e4, e5, e6, e7, genCw, genCcw, genBlink, genPinseq, genBounce, genBincnt, genLcg,
      genBreathe] at h <;>
    (try split at h) <;> cases h <;>
    rcases mode_cases k with rfl | rfl | rfl | rfl | rfl | rfl | rfl | rfl <;>
    first | rfl | exact absurd rfl hk

/-- A generator keeps the two sweeping generators in the state space (10_state.md R35, R38). -/
theorem generatorOf_keeps_space {m : BitVec 3} {g g' : Bank} {v : Mask} (h : generatorOf m g = .ok (v, g'))
    (hb : bounceInSpace g.bpos g.bdir = true) (hr : breatheInSpace g.brc g.brd = true) :
    bounceInSpace g'.bpos g'.bdir = true ∧ breatheInSpace g'.brc g'.brd = true := by
  have B : ∀ (p : BitVec 3) (d : Dir), bounceInSpace p d = true →
      bounceInSpace (bounceNext p d) (bounceDir (bounceNext p d) d) = true := by
    intro p d
    cases d <;> revert p <;> decide
  have R : ∀ (c : BitVec 4) (d : Dir), breatheInSpace c d = true →
      breatheInSpace (breatheNext c d) (breatheDir (breatheNext c d) d) = true := by
    intro c d
    cases d <;> revert c <;> decide
  obtain ⟨e0, e1, e2, e3, e4, e5, e6, e7⟩ := generatorOf_table
  rcases mode_cases m with rfl | rfl | rfl | rfl | rfl | rfl | rfl | rfl
  · rw [e0] at h; cases h; exact ⟨hb, hr⟩
  · rw [e1] at h; cases h; exact ⟨hb, hr⟩
  · rw [e2] at h; cases h; exact ⟨hb, hr⟩
  · rw [e3] at h; cases h; exact ⟨hb, hr⟩
  · rw [e4, genBounce, if_pos hb] at h; cases h; exact ⟨B _ _ hb, hr⟩
  · rw [e5] at h; cases h; exact ⟨hb, hr⟩
  · rw [e6] at h; cases h; exact ⟨hb, hr⟩
  · rw [e7, genBreathe, if_pos hr] at h; cases h; exact ⟨hb, R _ _ hr⟩

/-- The reset state is in the state space, whatever the environment does. -/
theorem resetRegisters_inSpace (s : State) : InSpace (resetRegisters s) := ⟨show (0#3) ≤ 5 by decide, rfl, rfl⟩

/-- Every phase of the state space names an operation (30_encoding.md R90, R102). -/
theorem decodePhase_total {ph : BitVec 3} (h : ph ≤ 5) : ∃ i, decodePhase ph = .ok i := by
  rcases mode_cases ph with rfl | rfl | rfl | rfl | rfl | rfl | rfl | rfl <;>
    first | exact ⟨_, rfl⟩ | exact absurd h (by decide)

/-! ### Runs -/

/-- A run of `m + n` cycles is a run of `m` cycles and then one of `n`. -/
theorem cycles_add (m n : Nat) (s : State) : cycles (m + n) s = andThen (cycles m s) (cycles n) := by
  induction m generalizing s with
  | zero => simp [cycles]
  | succ m ih =>
    rw [Nat.succ_add, cycles, cycles]
    cases step s with
    | next t => simp [ih]
    | fault r => rfl
    | refused r => rfl

/-- A shorter span without reset. -/
theorem noReset_mono {s : State} {m n : Nat} (h : NoReset s n) (hm : m ≤ n) : NoReset s m :=
  fun k hk => h k (Nat.lt_of_lt_of_le hk hm)

/-- The rest of a span without reset, once `m` of its cycles have passed. -/
theorem noReset_passCycles {s t : State} {m n : Nat} (h : NoReset s (m + n)) (e : SameEnv (passCycles m s) t) :
    NoReset t n := by
  intro k hk
  rw [pinsAt_congr e, pinsAt_passCycles]
  exact h _ (Nat.add_lt_add_left hk m)

end Sys2Proof.Machine
end

