-- ==== Sys2Proof/Laws/PerInstr.lean ====
section
/-! SUPPORT. Statements made one operation at a time: family `Selector`, which operations have a selector of their own
(spec/30_encoding.md R91, R106). -/

namespace Sys2Proof.Laws.Selector

/-- An operation has a selector exactly where it is none of the five of format `NONE`; a phase operation's is one of the
six phase codes, a generator step's is a mode. -/
def Statement (i : Instr) : Prop :=
  match i with
  | .readBtn | .writeAll _ | .delay _ | .reset | .iter _ => encode i = none
  | .sample | .hold | .advance | .settle | .render | .frame => ∃ w, encode i = some (.phase, w) ∧ w ≤ 5
  | .stepCw | .stepCcw | .stepBlink | .stepPinseq | .stepBounce | .stepBincnt | .stepLcg | .stepBreathe =>
    ∃ w, encode i = some (.mode3, w)

theorem sample : Statement .sample := ⟨_, rfl, by decide⟩
theorem hold : Statement .hold := ⟨_, rfl, by decide⟩
theorem advance : Statement .advance := ⟨_, rfl, by decide⟩
theorem settle : Statement .settle := ⟨_, rfl, by decide⟩
theorem render : Statement .render := ⟨_, rfl, by decide⟩
theorem frame : Statement .frame := ⟨_, rfl, by decide⟩
theorem stepCw : Statement .stepCw := ⟨_, rfl⟩
theorem stepCcw : Statement .stepCcw := ⟨_, rfl⟩
theorem stepBlink : Statement .stepBlink := ⟨_, rfl⟩
theorem stepPinseq : Statement .stepPinseq := ⟨_, rfl⟩
theorem stepBounce : Statement .stepBounce := ⟨_, rfl⟩
theorem stepBincnt : Statement .stepBincnt := ⟨_, rfl⟩
theorem stepLcg : Statement .stepLcg := ⟨_, rfl⟩
theorem stepBreathe : Statement .stepBreathe := ⟨_, rfl⟩
theorem readBtn : Statement .readBtn := rfl
theorem writeAll (v : Mask) : Statement (.writeAll v) := rfl
theorem delay (n : Nat) : Statement (.delay n) := rfl
theorem reset : Statement .reset := rfl
theorem iter (b : Level) : Statement (.iter b) := rfl

end Sys2Proof.Laws.Selector
end

