-- ==== Sys2Proof/Tests/Slice0.lean ====
section
/-! SUPPORT. The model's own tests, each about one step on a small state, with expected values from spec/95_test_vectors.md
or from the rule named; and, for every statement that has hypotheses, a state that meets them. -/

namespace Sys2Proof.Tests

open Sys2Proof.Machine

/-! ### Helpers -/

/-- The outcome is a next state of which `p` is true. -/
def nextHas (o : Host.Outcome State Fault Refusal) (p : State → Bool) : Bool :=
  match o with
  | .next t => p t
  | .fault _ => false
  | .refused _ => false

/-- The outcome is a refusal of which `p` is true. -/
def refusedAs (o : Host.Outcome State Fault Refusal) (p : Refusal → Bool) : Bool :=
  match o with
  | .next _ => false
  | .fault _ => false
  | .refused r => p r

/-- The state after reset with a level of `btn` in the present cycle, and then `n` cycles more, none with a reset. -/
def quiet (b : Level) (n : Nat) : State := { State.reset with stim := ⟨b, false⟩ :: List.replicate n ⟨b, false⟩ }

/-- `quiet` in another phase. -/
def quietIn (p : Phase) (b : Level) (n : Nat) : State := { quiet b n with ph := phaseCode p }

theorem quiet_noReset (b : Level) (n : Nat) : NoReset (quiet b n) (n + 1) :=
  noReset_of_stim (by simp [quiet]) (by simp [quiet])

theorem quiet_inSpace (b : Level) (n : Nat) : InSpace (quiet b n) :=
  ⟨show (0#3) ≤ 5 by decide, rfl, rfl⟩

/-! ### Well-formedness: the one check, refused and passed -/

theorem test_delay_too_long_is_ill_formed : (Instr.delay (2 ^ Config.dlyWidth)).wf = false := by simp [Instr.wf]

theorem test_delay_longest_is_well_formed : (Instr.delay (2 ^ Config.dlyWidth - 1)).wf = true := by simp [Instr.wf]

/-! ### Decoding: words written out from 30_encoding.md R90, R92, R100 -/

theorem test_decode_phase_words :
    decode .phase 0b000#3 = .ok .sample ∧ decode .phase 0b001#3 = .ok .hold ∧ decode .phase 0b010#3 = .ok .advance ∧
    decode .phase 0b011#3 = .ok .settle ∧ decode .phase 0b100#3 = .ok .render ∧
    decode .phase 0b101#3 = .ok .frame := by decide

theorem test_decode_mode_words :
    decode .mode3 0b000#3 = .ok .stepCw ∧ decode .mode3 0b001#3 = .ok .stepCcw ∧
    decode .mode3 0b010#3 = .ok .stepBlink ∧ decode .mode3 0b011#3 = .ok .stepPinseq ∧
    decode .mode3 0b100#3 = .ok .stepBounce ∧ decode .mode3 0b101#3 = .ok .stepBincnt ∧
    decode .mode3 0b110#3 = .ok .stepLcg ∧ decode .mode3 0b111#3 = .ok .stepBreathe := by decide

theorem test_decode_reserved_phases :
    decode .phase 0b110#3 = .error (.reservedPhase 6) ∧ decode .phase 0b111#3 = .error (.reservedPhase 7) := by decide

/-- Format `NONE` (R91): no word decodes to these. -/
theorem test_encode_none :
    encode .readBtn = none ∧ encode (.writeAll 0xA5) = none ∧ encode (.delay 3) = none ∧ encode .reset = none ∧
    encode (.iter true) = none := by decide

theorem test_table_words :
    decodeTableWord 8 0 = some .sample ∧ decodeTableWord 8 5 = some .frame ∧ decodeTableWord 8 6 = some .stepLcg ∧
    decodeTableWord 8 7 = some .stepBreathe ∧ decodeTableWord 8 8 = none ∧ decodeTableWord 0 0 = none := by decide

/-- A placed word is what the very next cycle performs (an `ADVANCE`: `MODE` 0 to 1, then `SETTLE`). -/
theorem test_withFetchWord_advance :
    nextHas (step (State.reset.withFetchWord 8 2)) (fun t => t.mode == 1 && t.ph == phaseCode .settle) = true := by
  decide

/-- A placed mode word is performed by the `RENDER` of that mode (call 1 of the LCG yields 0x98). -/
theorem test_withFetchWord_lcg :
    nextHas (step (State.reset.withFetchWord 8 6)) (fun t => t.out == 0x98 && t.ph == phaseCode .frame) = true := by
  decide

/-! ### The operations -/

/-- V2 and V3 of spec/95_test_vectors.md. -/
theorem test_sample_low : nextHas (exec .sample (quiet false 0))
    (fun t => !t.prev && t.ph == phaseCode .render && t.result == .bit false) = true := by decide

theorem test_sample_rising : nextHas (exec .sample (quiet true 0))
    (fun t => t.prev && t.ph == phaseCode .hold && t.result == .bit true) = true ∧
    nextHas (exec .sample (quiet true 0)) (fun t => decide (t.dly.toNat = Config.holdTicks.toNat)) = true :=
  ⟨by decide, by simp [nextHas, exec, execSample, quiet, btnLevel, pinsAt, State.reset, rising]⟩

/-- V7: a hold with `DLY = 0` goes to `ADVANCE`. -/
theorem test_hold_ends : nextHas (exec .hold (quietIn .hold true 0)) (fun t => t.ph == phaseCode .advance) = true := by
  decide

/-- V13: the wrap from 7 to 0. -/
theorem test_advance_wraps : nextHas (exec .advance { State.reset with mode := 7, out := 0xFF })
    (fun t => t.mode == 0 && t.out == 0 && t.trace == [0]) = true := by decide

/-- V15: the bank is unchanged. -/
theorem test_advance_keeps_bank :
    nextHas (exec .advance { State.reset with mode := 2, g := { Bank.reset with cwi := 5, bcnt := 0x40, lcgs := 0xD6 } })
      (fun t => t.mode == 3 && t.g == { Bank.reset with cwi := 5, bcnt := 0x40, lcgs := 0xD6 }) = true := by decide

/-- V17. -/
theorem test_settle_ends :
    nextHas (exec .settle (quietIn .settle true 0)) (fun t => t.ph == phaseCode .render) = true := by decide

/-- V29: mode 6 from the fresh bank, the other entries unchanged. -/
theorem test_render_lcg : nextHas (exec .render { State.reset with mode := 6 })
    (fun t => t.out == 0x98 && t.g == { Bank.reset with lcgs := 0x98 } && t.mode == 6 && t.ph == phaseCode .frame) =
      true := by decide

/-- The example of 44_dispatcher.md R190. -/
theorem test_render_bincnt : nextHas (exec .render { State.reset with mode := 5, g := { Bank.reset with bcnt := 0x0F } })
    (fun t => t.out == 0x10 && t.g.bcnt == 0x10 && t.trace == [0x10]) = true := by decide

theorem test_frame_ends :
    nextHas (exec .frame (quietIn .frame false 0)) (fun t => t.ph == phaseCode .sample) = true := by decide

/-- `COMPASS_REF` of spec/95_test_vectors.md. -/
def compassRef (k : Fin 8) : Fin 8 := (#v[0, 2, 4, 6, 7, 5, 3, 1] : Vector (Fin 8) 8)[k]

/-- V31 and V32 under `COMPASS_REF`: the masks, and the wrap from NW to N. -/
theorem test_cw_masks : (genCw compassRef { Bank.reset with cwi := 7 }).toOption =
      some (0x02, { Bank.reset with cwi := 0 }) ∧
    (genCw compassRef { Bank.reset with cwi := 4 }).toOption = some (0x80, { Bank.reset with cwi := 5 }) := by decide

theorem test_cw_moves : nextHas (exec .stepCw State.reset) (fun t => t.g == { Bank.reset with cwi := 1 }) = true := by
  decide

/-- V33 and V34 under `COMPASS_REF`: the wrap downwards. -/
theorem test_ccw_masks : (genCcw compassRef Bank.reset).toOption = some (0x01, { Bank.reset with cci := 7 }) ∧
    (genCcw compassRef { Bank.reset with cci := 1 }).toOption = some (0x04, Bank.reset) := by decide

theorem test_ccw_moves : nextHas (exec .stepCcw State.reset) (fun t => t.g == { Bank.reset with cci := 7 }) = true := by
  decide

/-- V35 and V36. -/
theorem test_blink_on :
    nextHas (exec .stepBlink State.reset) (fun t => t.result == .mask 0xFF && t.g.blk) = true := by decide

theorem test_blink_off : nextHas (exec .stepBlink { State.reset with g := { Bank.reset with blk := true } })
    (fun t => t.result == .mask 0x00 && t.g == Bank.reset) = true := by decide

/-- V38: the last position, and the wrap. -/
theorem test_pinseq_wraps : nextHas (exec .stepPinseq { State.reset with g := { Bank.reset with psi := 7 } })
    (fun t => t.result == .mask 0x80 && t.g == Bank.reset) = true := by decide

/-- V40: the flip in the call that lights 7. -/
theorem test_bounce_top : nextHas (exec .stepBounce { State.reset with g := { Bank.reset with bpos := 6 } })
    (fun t => t.result == .mask 0x80 && t.g == { Bank.reset with bpos := 7, bdir := .down }) = true := by decide

/-- V42: the flip in the call that lights 0. -/
theorem test_bounce_bottom : nextHas (exec .stepBounce { State.reset with g := { Bank.reset with bpos := 1, bdir := .down } })
    (fun t => t.result == .mask 0x01 && t.g == Bank.reset) = true := by decide

/-- V46: the wrap. -/
theorem test_bincnt_wraps : nextHas (exec .stepBincnt { State.reset with g := { Bank.reset with bcnt := 0xFF } })
    (fun t => t.result == .mask 0x00 && t.g == Bank.reset) = true := by decide

/-- V49 and V50. -/
theorem test_lcg_from_ff : nextHas (exec .stepLcg { State.reset with g := { Bank.reset with lcgs := 0xFF } })
    (fun t => t.result == .mask 0xCC && t.g.lcgs == 0xCC) = true := by decide

theorem test_lcg_before_seed : nextHas (exec .stepLcg { State.reset with g := { Bank.reset with lcgs := 0x0A } })
    (fun t => t.result == .mask 0x7B && t.g == Bank.reset) = true := by decide

/-- V52: count 8 is yielded and the flag flips. -/
theorem test_breathe_full : nextHas (exec .stepBreathe { State.reset with g := { Bank.reset with brc := 7 } })
    (fun t => t.result == .mask 0xFF && t.g == { Bank.reset with brc := 8, brd := .down }) = true := by decide

/-- V54: count 0 is yielded and the flag flips. -/
theorem test_breathe_empty : nextHas (exec .stepBreathe { State.reset with g := { Bank.reset with brc := 1, brd := .down } })
    (fun t => t.result == .mask 0x00 && t.g == Bank.reset) = true := by decide

/-- V1: a read changes no state. -/
theorem test_read_btn :
    nextHas (exec .readBtn (quiet true 0)) (fun t => t.result == .bit true && !t.prev) = true := by decide

/-- V21 and V20: all eight lines change at once, and a write of the same value is still an output event. -/
theorem test_write_all : nextHas (exec (.writeAll 0xF0) { State.reset with out := 0x0F }) (fun t => t.out == 0xF0) = true ∧
    nextHas (exec (.writeAll 0x3C) { State.reset with out := 0x3C }) (fun t => t.trace == [0x3C]) = true := by decide

/-- The example of 40_sequencer.md R123: `DELAY 3` from the `FRAME` phase takes four cycles to `SAMPLE`. -/
theorem test_delay_three (h : 3 < 2 ^ Config.dlyWidth) :
    exec (.delay 3) (quietIn .frame false 9) = .next { quiet false 9 with stim := List.replicate 6 ⟨false, false⟩, tick := 4 } := by
  simp [exec, execDelay, h]; rfl

/-- 20_memory.md R75: the reset in its third cycle ends `DELAY 3` there, with the state of R260 and `PH = SAMPLE`. -/
theorem test_delay_ended_by_reset : nextHas (exec (.delay 3)
    { quietIn .frame true 9 with out := 0x80, mode := 5, stim := [⟨true, false⟩, ⟨true, false⟩, ⟨true, true⟩, ⟨true, false⟩] })
    (fun t => t.out == 0x00 && t.mode == 0 && t.ph == 0 && t.tick == 3 && t.stim == [⟨true, false⟩]) =
      decide (3 < 2 ^ Config.dlyWidth) := by
  by_cases h : 3 < 2 ^ Config.dlyWidth
  · simp only [exec, execDelay, h, if_true, decide_true]; rfl
  · simp only [exec, execDelay, h, if_false, decide_false]; rfl

/-- The state before of V61. -/
def worn : State :=
  { State.reset with
    prev := true, mode := 5, out := 0x2A, ph := phaseCode .frame
    g := ⟨3, 6, true, 2, 7, .down, 0x2A, 0xD6, 8, .down⟩ }

/-- V61. -/
theorem test_reset : nextHas (exec .reset worn)
    (fun t => !t.prev && t.mode == 0 && t.out == 0 && t.g == ⟨0, 0, false, 0, 0, .up, 0, 0x7B, 0, .up⟩ && t.ph == 0) =
      true := by decide

/-- V59: a held button, mode 7, count 8 down. -/
theorem test_iter_no_press : nextHas
    (exec (.iter true) { State.reset with prev := true, mode := 7, g := { Bank.reset with brc := 8, brd := .down } })
    (fun t => t.trace == [0x7F] && t.mode == 7 && t.g.brc == 7) = true := by decide

/-- A press into the binary counter: the all-off mask first, then the new pattern's frame. -/
theorem test_iter_press : nextHas (exec (.iter true) { State.reset with mode := 4, out := 0x80 })
    (fun t => t.trace == [0x00, 0x01] && t.mode == 5 && t.out == 0x01 && t.prev) = true := by decide

/-! ### Hypotheses that can be met -/

theorem witness_reset_pin (n : Nat) :
    ∀ k < n + 1, (pinsAt { State.reset with stim := List.replicate (n + 1) ⟨true, true⟩ } k).rst = true := by
  intro k hk
  simp [pinsAt, hk]

theorem witness_reset_cycle : rstLevel { State.reset with stim := [⟨true, true⟩], ph := 7 } = true := by decide

theorem witness_phase_cycle : rstLevel (quiet true 0) = false ∧ decode .phase (quiet true 0).ph = .ok .sample := by decide

theorem witness_reserved_phase : rstLevel { quiet true 0 with ph := 6 } = false ∧ ({ quiet true 0 with ph := 6 } : State).ph = 6 ∧
    rstLevel { quiet true 0 with ph := 7 } = false ∧ ({ quiet true 0 with ph := 7 } : State).ph = 7 := by decide

/-- Every phase has a cycle without reset that answers a next state: the delay phases where they end. -/
theorem witness_phases (p : Phase) : rstLevel (quietIn p true 0) = false ∧ (quietIn p true 0).ph = phaseCode p ∧
    (quietIn p true 0).dly = 0 ∧ ∃ t, step (quietIn p true 0) = .next t := by
  cases p <;> exact ⟨rfl, rfl, rfl, _, rfl⟩

/-- A delay counter that is not 0, with the phase it counts in. -/
theorem witness_delay_counting (p : Phase) : rstLevel { quietIn p true 0 with dly := 1 } = false ∧
    ({ quietIn p true 0 with dly := 1 } : State).dly ≠ 0 := by
  refine ⟨rfl, ?_⟩
  rw [Ne, dly_eq_zero_iff]
  simp [Nat.mod_eq_of_lt (Nat.one_lt_two_pow (Nat.succ_ne_zero Config.dlyWidthLess1))]

/-- The four combinations of `PREV` and the level read. -/
theorem witness_edges : (quiet false 0).prev = false ∧ btnLevel (quiet false 0) = false ∧ btnLevel (quiet true 0) = true ∧
    ({ quiet false 0 with prev := true } : State).prev = true ∧ btnLevel { quiet false 0 with prev := true } = false ∧
    btnLevel { quiet true 0 with prev := true } = true := by decide

/-- Reading and sampling the same cycle both answer a next state. -/
theorem witness_read_and_sample : ∃ t u, exec .readBtn (quiet true 0) = .next t ∧ exec .sample (quiet true 0) = .next u :=
  ⟨_, _, rfl, rfl⟩

/-- A delay phase entered with any count, and no reset for as long as it lasts. -/
theorem witness_delay_phase (p : Phase) (d : BitVec Config.dlyWidth) :
    ({ quietIn p true d.toNat with dly := d } : State).ph = phaseCode p ∧
    NoReset { quietIn p true d.toNat with dly := d } (d.toNat + 1) :=
  ⟨rfl, noReset_of_stim (by simp [quietIn, quiet]) (by simp [quietIn, quiet])⟩

/-- The shortest and the longest operand of `DELAY`, and the first that does not fit. -/
theorem witness_delay_operands : 0 < 2 ^ Config.dlyWidth ∧ 2 ^ Config.dlyWidth - 1 < 2 ^ Config.dlyWidth ∧
    2 ^ Config.dlyWidth ≤ 2 ^ Config.dlyWidth := by
  have := Nat.two_pow_pos Config.dlyWidth
  omega

/-- The delay phases, and a phase that is none. -/
theorem witness_delay_phases : (quietIn .hold true 0).ph ∈ [phaseCode .hold, phaseCode .settle, phaseCode .frame] ∧
    (quietIn .settle true 0).ph ∈ [phaseCode .hold, phaseCode .settle, phaseCode .frame] ∧
    (quietIn .frame true 0).ph ∈ [phaseCode .hold, phaseCode .settle, phaseCode .frame] ∧
    (quietIn .sample true 0).ph ∉ [phaseCode .hold, phaseCode .settle, phaseCode .frame] := by decide

/-- Delays that no reset ends, in a delay phase and in another; and one that its first, and one that its last cycle
ends. -/
theorem witness_delay_and_reset (p : Phase) (n : Nat) :
    ¬ PerformsReset (.delay n) (quietIn p true n) ∧ ¬ PerformsReset (.delay n) (quietIn .sample true 0) ∧
    FirstResetAt { quietIn .hold true 0 with stim := [⟨true, true⟩] } 0 ∧
    FirstResetAt { quietIn .frame true 0 with stim := List.replicate n ⟨true, false⟩ ++ [⟨true, true⟩] } n := by
  have hn : NoReset (quietIn p true n) (n + 1) := noReset_of_stim (by simp [quietIn, quiet]) (by simp [quietIn, quiet])
  refine ⟨?_, ?_, ⟨fun k hk => absurd hk (Nat.not_lt_zero k), rfl⟩, fun k hk => ?_, ?_⟩
  · rintro (h | ⟨m, h, _, hr⟩)
    · cases h
    · cases h; exact hr hn
  · rintro (h | ⟨m, _, hp, _⟩)
    · cases h
    · exact absurd hp (by decide)
  · simp [pinsAt, hk, List.getElem?_append_left]
  · simp [pinsAt]

/-- A delay that a reset ends and that answers a next state. -/
theorem witness_performs_reset : PerformsReset (.delay 0) { quietIn .frame true 0 with stim := [⟨true, true⟩] } ∧
    ∃ t, exec (.delay 0) { quietIn .frame true 0 with stim := [⟨true, true⟩] } = .next t := by
  refine ⟨.inr ⟨0, rfl, by decide, fun h => absurd (h 0 Nat.one_pos) (by decide)⟩, _, if_pos (Nat.two_pow_pos _)⟩

/-- Two stimuli that differ in `btn` and agree in `rst` in every cycle, in a phase that is no `SAMPLE`. -/
theorem witness_other_levels (k : Nat) :
    (pinsAt { quietIn .frame true 0 with stim := [⟨false, false⟩] } k).rst = (pinsAt (quietIn .frame true 0) k).rst ∧
    btnLevel { quietIn .frame true 0 with stim := [⟨false, false⟩] } ≠ btnLevel (quietIn .frame true 0) ∧
    (quietIn .frame true 0).ph ≠ phaseCode .sample := by
  refine ⟨?_, by decide, by decide⟩
  cases k <;> rfl

/-- A hold that ends enters `ADVANCE`. -/
theorem witness_into_advance : ∃ t, step (quietIn .hold true 0) = .next t ∧ rstLevel (quietIn .hold true 0) = false ∧
    t.ph = phaseCode .advance := ⟨_, rfl, rfl, rfl⟩

/-- A sample without a press, and a settle delay that ends, enter `RENDER`. -/
theorem witness_into_render : (∃ t, step (quiet false 0) = .next t ∧ rstLevel (quiet false 0) = false ∧
      t.ph = phaseCode .render) ∧
    ∃ t, step (quietIn .settle true 0) = .next t ∧ rstLevel (quietIn .settle true 0) = false ∧ t.ph = phaseCode .render :=
  ⟨⟨_, rfl, rfl, rfl⟩, _, rfl, rfl, rfl⟩

/-- `RENDER` and the step its mode selects both answer a next state, with the mask of the step. -/
theorem witness_render_and_step : ∃ t u v, exec .render State.reset = .next t ∧
    exec (decodeMode State.reset.mode) State.reset = .next u ∧ u.result = .mask v := ⟨_, _, _, rfl, rfl, rfl⟩

/-- `ADVANCE` and `WRITE_ALL` answer a next state on any state. -/
theorem witness_advance_and_write (s : State) (v old : Mask) : ∃ t u w, exec .advance s = .next t ∧
    exec (.writeAll v) s = .next u ∧ exec (.writeAll v) { s with out := old } = .next w := ⟨_, _, _, rfl, rfl, rfl⟩

/-- An operation that is no reset and no delay and changes `PREV`, `MODE`, `OUT` and a generator entry. -/
theorem witness_iter_changes : ∃ t, exec (.iter true) { State.reset with out := 0x80, mode := 4 } = .next t ∧
    t.prev ≠ State.reset.prev ∧ t.mode ≠ 4 ∧ t.out ≠ 0x80 ∧ bankEntry t.g 5 ≠ bankEntry State.reset.g 5 := by
  refine ⟨_, rfl, ?_, ?_, ?_, ?_⟩ <;> decide

/-- A cycle that changes the phase. -/
theorem witness_phase_changes : ∃ t, exec .sample State.reset = .next t ∧ t.ph ≠ State.reset.ph := by
  refine ⟨_, rfl, ?_⟩
  split <;> simp [State.reset, phaseCode]

/-- A cycle without reset in which a generator entry changes. -/
theorem witness_generator_changes : ∃ t, step { quietIn .render true 0 with mode := 5 } = .next t ∧
    rstLevel { quietIn .render true 0 with mode := 5 } = false ∧
    bankEntry t.g 5 ≠ bankEntry ({ quietIn .render true 0 with mode := 5 } : State).g 5 := by
  refine ⟨_, rfl, rfl, ?_⟩
  decide

/-- Two states of the state space that agree on the entry of the mode and differ elsewhere. -/
theorem witness_same_entry : InSpace State.reset ∧
    InSpace { State.reset with prev := true, out := 0xFF, g := { Bank.reset with bcnt := 9 } } ∧
    bankEntry { Bank.reset with bcnt := 9 } State.reset.mode = bankEntry State.reset.g State.reset.mode := by
  refine ⟨⟨?_, ?_, ?_⟩, ⟨?_, ?_, ?_⟩, ?_⟩ <;> decide

/-- The boundary positions of the bounce scan inside the state space. -/
theorem witness_bounce_inside : (6#3).toNat ≤ 6 ∧ bounceInSpace 6 .up = true ∧ 1 ≤ (1#3).toNat ∧
    bounceInSpace 1 .down = true ∧ bounceInSpace 7 .down = true ∧ bounceInSpace 0 .up = true := by decide

/-- The two bounce states outside the state space are refused (93_implementation_defined.md U13). -/
theorem test_bounce_outside :
    refusedAs (exec .stepBounce { State.reset with g := { Bank.reset with bpos := 7, bdir := .up } })
      (· == .bounceOutsideStateSpace) = true ∧
    refusedAs (exec .stepBounce { State.reset with g := { Bank.reset with bpos := 0, bdir := .down } })
      (· == .bounceOutsideStateSpace) = true := by decide

/-- The boundary counts of the breathing generator inside the state space. -/
theorem witness_breathe_inside : breatheInSpace 7 .up = true ∧ breatheInSpace 0 .up = true ∧ breatheInSpace 1 .down = true ∧
    breatheInSpace 8 .down = true ∧ (7#4).toNat ≤ 7 ∧ 1 ≤ (1#4).toNat ∧ (8#4).toNat ≤ 8 := by decide

/-- The breathing states just outside the state space are refused (93_implementation_defined.md U14). -/
theorem test_breathe_outside :
    refusedAs (exec .stepBreathe { State.reset with g := { Bank.reset with brc := 9, brd := .down } })
      (· == .breatheOutsideStateSpace) = true ∧
    refusedAs (exec .stepBreathe { State.reset with g := { Bank.reset with brc := 8, brd := .up } })
      (· == .breatheOutsideStateSpace) = true ∧
    refusedAs (exec .stepBreathe { State.reset with g := { Bank.reset with brc := 0, brd := .down } })
      (· == .breatheOutsideStateSpace) = true := by decide

/-- One iteration from the state after reset, with and without a press, and no reset for as long as it lasts. -/
theorem witness_iteration (b : Level) : ∃ s : State, InSpace s ∧ s.ph = phaseCode .sample ∧ s.prev = false ∧ btnLevel s = b ∧
    NoReset s (iterLength s (btnLevel s)) ∧ ∃ u, exec (.iter (btnLevel s)) s = .next u :=
  ⟨quiet b (iterLength State.reset b), quiet_inSpace _ _, rfl, rfl, rfl,
    fun k hk => quiet_noReset b _ k (Nat.lt_succ_of_lt hk), by cases b <;> exact ⟨_, rfl⟩⟩

/-- Two stimuli with the same first level of `btn` that differ afterwards, without a reset. -/
theorem witness_later_levels (n : Nat) : ∃ stim' : List Pins, btnLevel { quiet true n with stim := stim' } = btnLevel (quiet true n) ∧
    NoReset { quiet true n with stim := stim' } (n + 1) :=
  ⟨⟨true, false⟩ :: List.replicate n ⟨false, false⟩, rfl, noReset_of_stim (by simp) (by simp)⟩

/-- A state that meets the invariant of the loop and has a next state. -/
theorem witness_loop_invariant : LoopInv (quiet true 0) ∧ ∃ t, step (quiet true 0) = .next t :=
  ⟨⟨quiet_inSpace _ _, fun _ => rfl, fun h => absurd h (by decide), fun h => absurd h (by decide),
    fun h => absurd h (by decide), fun h => absurd h (by decide), fun h => absurd h (by decide)⟩, _, rfl⟩

/-- The invariant of the loop is met in a delay phase with the whole parameter loaded. -/
theorem witness_loop_invariant_hold :
    LoopInv { quietIn .hold true 0 with prev := true, dly := Config.holdTicks } :=
  ⟨⟨by decide, by decide, by decide⟩, fun h => absurd h (by decide), fun _ => ⟨rfl, Nat.le_refl _⟩,
    fun h => absurd h (by decide), fun h => absurd h (by decide), fun h => absurd h (by decide),
    fun h => absurd h (by decide)⟩

/-- Well-formed operations with an operand. -/
theorem witness_well_formed : (Instr.delay 0).wf = true ∧ (Instr.writeAll 0xFF).wf = true ∧ (Instr.iter true).wf = true := by
  simp [Instr.wf]

end Sys2Proof.Tests
end

section
/-! SUPPORT. Ownership of the registers (spec/10_state.md section 1): what each class of operations leaves unchanged, which
operations can write which register, and what follows for a clock cycle. -/

namespace Sys2Proof.Machine

/-! ### The reset values -/

@[simp] theorem exec_reset (s : State) : exec .reset s = .next (resetRegisters s) := rfl

/-- Settles O7: the seed is a literal of the reset bank, which `RESET` writes whatever the state. -/
theorem resetSeedsTheLcgWith123 : Obligations.ResetSeedsTheLcgWith123 :=
  ⟨rfl, fun s => ⟨resetRegisters s, exec_reset s, rfl⟩⟩

/-- A `DELAY` that performs a reset stops in the state which that reset, some cycles from now, leaves. -/
theorem blockingDelay_of_performsReset {n : Nat} {s : State} (h : PerformsReset (.delay n) s) :
    ∃ k, blockingDelay n s = passCycles k (resetRegisters s) := by
  obtain ⟨hp, hr⟩ : InDelayPhase s ∧ ¬ NoReset s (n + 1) := by simpa [PerformsReset] using h
  rcases blockingDelay_cases n s with ⟨hnp, _⟩ | ⟨_, hnr, _⟩ | ⟨_, k, _, _, e⟩
  · exact absurd hp hnp
  · exact absurd hnr hr
  · exact ⟨k + 1, e⟩

/-- Whatever performs `RESET` leaves every register of the spec at its reset value (70_reset_and_hazards.md R260). -/
theorem exec_of_performsReset {i : Instr} {s t : State} (h : exec i s = .next t) (hr : PerformsReset i s) :
    SameArch State.reset t ∧ SameSequencer State.reset t := by
  rcases hr with rfl | ⟨n, rfl, hd⟩
  · rw [exec_reset] at h
    cases h
    exact ⟨⟨rfl, rfl, rfl, rfl⟩, rfl, rfl⟩
  · obtain ⟨_, rfl⟩ := exec_delay_next h
    obtain ⟨k, e⟩ := blockingDelay_of_performsReset (.inr ⟨n, rfl, hd⟩)
    rw [e]
    exact ⟨⟨rfl, rfl, rfl, rfl⟩, rfl, rfl⟩

/-! ### What the operations leave unchanged -/

/-- A generator step changes the entry of its own mode at most (45_generators.md R200). -/
theorem generatorOf_changes_own {m k : BitVec 3} {g g' : Bank} {v : Mask} (h : generatorOf m g = .ok (v, g'))
    (hk : bankEntry g' k ≠ bankEntry g k) : k = m :=
  not_imp_comm.mp (generatorOf_keeps_others h) hk

/-- `SAMPLE` writes `PREV` and no other register of the architectural state (41_debouncer.md R152). -/
theorem exec_sample_frame {s t : State} (h : exec .sample s = .next t) :
    t.prev = btnLevel s ∧ t.mode = s.mode ∧ t.out = s.out ∧ t.g = s.g := by
  change execSample s = _ at h
  unfold execSample at h
  split at h <;> cases h <;> exact ⟨rfl, rfl, rfl, rfl⟩

/-- A cycle of a delay phase leaves the architectural state (40_sequencer.md R124). -/
theorem exec_delayPhase_sameArch {i : Instr} {s t : State} (hi : i ∈ [Instr.hold, .settle, .frame])
    (h : exec i s = .next t) : SameArch s t := by
  obtain ⟨after, e⟩ : ∃ after, exec i s = .next (returning .none (delayCycle after s)) := by
    simp only [List.mem_cons, List.not_mem_nil, or_false] at hi
    rcases hi with rfl | rfl | rfl <;> exact ⟨_, rfl⟩
  rw [e] at h
  cases h
  exact (delayCycle_frame after s).1

/-! ### Which operations write which register -/

/-- From `s` to `t`, every register that changed is one that the operation `i` may write (10_state.md R22). -/
def WritesOnlyOwned (i : Instr) (s t : State) : Prop :=
  (t.prev ≠ s.prev → i = .sample ∨ ∃ b, i = .iter b) ∧
  (t.mode ≠ s.mode → i = .advance ∨ ∃ b, i = .iter b ∧ rising s.prev b = true) ∧
  (t.out ≠ s.out → (∃ v, i = .writeAll v) ∨ i = .advance ∨ i = .render ∨ ∃ b, i = .iter b) ∧
  (∀ m, bankEntry t.g m ≠ bankEntry s.g m →
    i = decodeMode m ∨ (i = .render ∧ s.mode = m) ∨ ∃ b, i = .iter b ∧ t.mode = m) ∧
  ((t.ph ≠ s.ph ∨ t.dly ≠ s.dly) →
    i ∈ [Instr.sample, .hold, .advance, .settle, .render, .frame] ∨ ∃ n, i = .delay n)

/-- An operation of the sequencer that leaves the architectural state writes only what it owns. -/
theorem writesOnlyOwned_of_sameArch {i : Instr} {s t : State}
    (hi : i ∈ [Instr.sample, .hold, .advance, .settle, .render, .frame] ∨ ∃ n, i = .delay n) (h : SameArch s t) :
    WritesOnlyOwned i s t := by
  obtain ⟨hprev, hmode, hout, hg⟩ := h
  exact ⟨absurd hprev, absurd hmode, absurd hout, fun m => absurd (by rw [hg]), fun _ => hi⟩

theorem writesOnlyOwned_sample {s t : State} (h : exec .sample s = .next t) : WritesOnlyOwned .sample s t := by
  obtain ⟨_, hmode, hout, hg⟩ := exec_sample_frame h
  exact ⟨fun _ => .inl rfl, absurd hmode, absurd hout, fun m => absurd (by rw [hg]), fun _ => .inl (by simp)⟩

theorem writesOnlyOwned_delayPhase {i : Instr} {s t : State} (hi : i ∈ [Instr.hold, .settle, .frame])
    (h : exec i s = .next t) : WritesOnlyOwned i s t :=
  have hsub : [Instr.hold, .settle, .frame] ⊆ [Instr.sample, .hold, .advance, .settle, .render, .frame] := by decide
  writesOnlyOwned_of_sameArch (.inl (hsub hi)) (exec_delayPhase_sameArch hi h)

theorem writesOnlyOwned_advance {s t : State} (h : exec .advance s = .next t) : WritesOnlyOwned .advance s t := by
  cases h
  exact ⟨absurd rfl, fun _ => .inl rfl, fun _ => .inr (.inl rfl), fun _ => absurd rfl, fun _ => .inl (by simp)⟩

theorem writesOnlyOwned_render {s t : State} (h : exec .render s = .next t) : WritesOnlyOwned .render s t := by
  obtain ⟨v, g, hg, rfl⟩ := exec_render_next h
  exact ⟨absurd rfl, absurd rfl, fun _ => .inr (.inr (.inl rfl)),
    fun m hm => .inr (.inl ⟨rfl, (generatorOf_changes_own hg hm).symm⟩), fun _ => .inl (by simp)⟩

theorem writesOnlyOwned_step {m : BitVec 3} {s t : State} (h : exec (decodeMode m) s = .next t) :
    WritesOnlyOwned (decodeMode m) s t := by
  obtain ⟨v, g, hg, rfl⟩ := exec_step_next h
  exact ⟨absurd rfl, absurd rfl, absurd rfl, fun k hk => .inl (generatorOf_changes_own hg hk ▸ rfl), by simp⟩

theorem writesOnlyOwned_readBtn {s t : State} (h : exec .readBtn s = .next t) : WritesOnlyOwned .readBtn s t := by
  cases h
  exact ⟨absurd rfl, absurd rfl, absurd rfl, fun _ => absurd rfl, by simp⟩

theorem writesOnlyOwned_writeAll {v : Mask} {s t : State} (h : exec (.writeAll v) s = .next t) :
    WritesOnlyOwned (.writeAll v) s t := by
  cases h
  exact ⟨absurd rfl, absurd rfl, fun _ => .inl ⟨v, rfl⟩, fun _ => absurd rfl, by simp⟩

theorem writesOnlyOwned_delay {n : Nat} {s t : State} (h : exec (.delay n) s = .next t)
    (hr : ¬ PerformsReset (.delay n) s) : WritesOnlyOwned (.delay n) s t := by
  obtain ⟨_, rfl⟩ := exec_delay_next h
  exact writesOnlyOwned_of_sameArch (.inr ⟨n, rfl⟩) (blockingDelay_frame hr).1

/-- `ITER b` writes the mode only on a press, and the entry of the mode it ends in (40_sequencer.md R125). -/
theorem writesOnlyOwned_iter {b : Level} {s t : State} (h : exec (.iter b) s = .next t) :
    WritesOnlyOwned (.iter b) s t := by
  obtain ⟨v, g, hg, rfl⟩ := exec_iter_next h
  refine ⟨fun _ => .inr ⟨b, rfl⟩, fun hm => .inr ⟨b, rfl, ?_⟩, fun _ => .inr (.inr (.inr ⟨b, rfl⟩)),
    fun m hm => .inr (.inr ⟨b, rfl, (generatorOf_changes_own hg hm).symm⟩), by simp⟩
  by_contra hb
  exact hm (if_neg hb)

/-- Every operation that performs no reset writes only the registers it owns. -/
theorem exec_writesOnlyOwned {i : Instr} {s t : State} (h : exec i s = .next t) (hr : ¬ PerformsReset i s) :
    WritesOnlyOwned i s t := by
  cases i with
  | sample => exact writesOnlyOwned_sample h
  | hold => exact writesOnlyOwned_delayPhase (by simp) h
  | advance => exact writesOnlyOwned_advance h
  | settle => exact writesOnlyOwned_delayPhase (by simp) h
  | render => exact writesOnlyOwned_render h
  | frame => exact writesOnlyOwned_delayPhase (by simp) h
  | stepCw => exact writesOnlyOwned_step (m := 0) h
  | stepCcw => exact writesOnlyOwned_step (m := 1) h
  | stepBlink => exact writesOnlyOwned_step (m := 2) h
  | stepPinseq => exact writesOnlyOwned_step (m := 3) h
  | stepBounce => exact writesOnlyOwned_step (m := 4) h
  | stepBincnt => exact writesOnlyOwned_step (m := 5) h
  | stepLcg => exact writesOnlyOwned_step (m := 6) h
  | stepBreathe => exact writesOnlyOwned_step (m := 7) h
  | readBtn => exact writesOnlyOwned_readBtn h
  | writeAll v => exact writesOnlyOwned_writeAll h
  | delay n => exact writesOnlyOwned_delay h hr
  | reset => exact absurd (.inl rfl) hr
  | iter b => exact writesOnlyOwned_iter h

/-- Settles O21: a reset gives every register its reset value, and any other operation writes only what it owns. -/
theorem eachRegisterHasOneWriter : Obligations.EachRegisterHasOneWriter :=
  ⟨fun _ _ _ => exec_of_performsReset, fun _ _ _ => exec_writesOnlyOwned⟩

/-! ### The registers in a clock cycle -/

/-- The step of the mode `m` is encoded in the mode space, by `m` (30_encoding.md R92). -/
@[simp] theorem encode_decodeMode (m : BitVec 3) : encode (decodeMode m) = some (.mode3, m) :=
  forall_mode (P := fun m => encode (decodeMode m) = some (.mode3, m)) ⟨rfl, rfl, rfl, rfl, rfl, rfl, rfl, rfl⟩ m

/-- Only operations without a selector perform a reset, so no operation that a phase names does. -/
theorem not_performsReset_of_encode {i : Instr} {s : State} {e : Space × BitVec 3} (h : encode i = some e) :
    ¬ PerformsReset i s := by
  rintro (rfl | ⟨n, rfl, _⟩) <;> exact nomatch h

/-- Settles O22: the operation of the phase performs no reset, and of the operations that may write `G[m]` the phase
space names `RENDER` alone. -/
theorem generatorChangesOnlyInARenderOfItsMode : Obligations.GeneratorChangesOnlyInARenderOfItsMode := by
  intro s t m h hrst hm
  rcases step_cases h with ⟨hr, _⟩ | ⟨_, i, u, hp, hu, rfl⟩
  · exact absurd (hrst.symm.trans hr) Bool.false_ne_true
  have henc : encode i = some (.phase, s.ph) := phase_of_decode hp
  obtain ⟨_, _, _, hbank, _⟩ := exec_writesOnlyOwned hu (not_performsReset_of_encode henc)
  rcases hbank m hm with rfl | ⟨rfl, hmode⟩ | ⟨b, rfl, _⟩
  · simp at henc
  · have hph : phaseCode .render = s.ph := by simpa [encode] using henc
    exact ⟨hph.symm, hmode⟩
  · exact nomatch henc

end Sys2Proof.Machine
end

section
/-! SUPPORT. The debounce state machine and the button (spec/41_debouncer.md): what `SAMPLE` reads and records, and that
nothing but `SAMPLE` and `READ_BTN` reads the level of `btn`. -/

namespace Sys2Proof.Machine

/-! ### Sampling -/

/-- `SAMPLE` completes, answers whether the level read is a rising edge after `PREV`, and records that level
(41_debouncer.md R152). -/
theorem exec_sample_records (s : State) : ∃ t, exec .sample s = .next t ∧
    t.result = .bit (rising s.prev (btnLevel s)) ∧ t.prev = btnLevel s := by
  refine ⟨_, rfl, ?_⟩
  split <;> exact ⟨rfl, rfl⟩

/-- Settles O9: the press is `rising` of the old `PREV` and the level read, evaluated in the four rows of the table. -/
theorem pressFiresOnlyOnARisingEdge : Obligations.PressFiresOnlyOnARisingEdge := by
  intro s
  obtain ⟨t, ht, hres, hprev⟩ := exec_sample_records s
  refine ⟨t, ht, ?_, ?_, ?_, ?_⟩ <;> intro hp hb <;> rw [hres, hprev, hp, hb] <;> exact ⟨rfl, rfl⟩

/-! ### Operations that read no port -/

/-- The operation `i` reads neither input port: with other levels ahead it does the same and leaves those levels. -/
def IgnoresPorts (i : Instr) : Prop :=
  ∀ (s : State) (ps : List Pins), exec i { s with stim := ps } = mapNext (fun t => { t with stim := ps }) (exec i s)

theorem delayCycle_stim (after : Phase) (s : State) (ps : List Pins) :
    delayCycle after { s with stim := ps } = { delayCycle after s with stim := ps } := by
  unfold delayCycle
  split <;> rfl

theorem ignoresPorts_delayPhase {i : Instr} {after : Phase}
    (hi : ∀ s, exec i s = .next (returning .none (delayCycle after s))) : IgnoresPorts i := by
  intro s ps
  rw [hi, hi, delayCycle_stim]
  rfl

theorem ignoresPorts_step (m : BitVec 3) : IgnoresPorts (decodeMode m) := by
  intro s ps
  rw [exec_decodeMode, exec_decodeMode]
  unfold runStep
  cases generatorOf m s.g <;> rfl

/-- `RENDER` where the generator of the mode refuses (93_implementation_defined.md U13, U14). -/
theorem exec_render_refused {s : State} {r : Refusal} (h : generatorOf s.mode s.g = .error r) :
    exec .render s = .refused r := by
  change execRender s = _
  simp [execRender, renderFrame, h]

/-- `ITER b` where the generator of the mode it renders refuses (93_implementation_defined.md U13, U14). -/
theorem exec_iter_refused {b : Level} {s : State} {r : Refusal}
    (h : generatorOf (if rising s.prev b then s.mode + 1 else s.mode) s.g = .error r) :
    exec (.iter b) s = .refused r := by
  change execIter b s = _
  unfold execIter
  cases hb : rising s.prev b <;> simp [hb] at h ⊢ <;> simp [renderFrame, h]

theorem ignoresPorts_render : IgnoresPorts .render := by
  intro s ps
  cases h : generatorOf s.mode s.g with
  | ok vg => rw [exec_render_of h, exec_render_of (s := { s with stim := ps }) h, mapNext_next]
  | error r => rw [exec_render_refused h, exec_render_refused (s := { s with stim := ps }) h, mapNext]

/-- `ITER b` takes the level it samples from its operand (40_sequencer.md R125). -/
theorem ignoresPorts_iter (b : Level) : IgnoresPorts (.iter b) := by
  intro s ps
  cases h : generatorOf (if rising s.prev b then s.mode + 1 else s.mode) s.g with
  | ok vg => rw [exec_iter_of h, exec_iter_of (s := { s with stim := ps }) h, mapNext_next]
  | error r => rw [exec_iter_refused h, exec_iter_refused (s := { s with stim := ps }) h, mapNext]

/-- Only `READ_BTN` and `SAMPLE`, which read `btn`, and `DELAY`, which reads `rst`, depend on the input ports. -/
theorem exec_ignoresPorts {i : Instr} (hread : i ≠ .readBtn) (hsample : i ≠ .sample) (hdelay : ∀ n, i ≠ .delay n) :
    IgnoresPorts i := by
  cases i with
  | sample => exact absurd rfl hsample
  | hold => exact ignoresPorts_delayPhase fun _ => rfl
  | advance => exact fun _ _ => rfl
  | settle => exact ignoresPorts_delayPhase fun _ => rfl
  | render => exact ignoresPorts_render
  | frame => exact ignoresPorts_delayPhase fun _ => rfl
  | stepCw => exact ignoresPorts_step 0
  | stepCcw => exact ignoresPorts_step 1
  | stepBlink => exact ignoresPorts_step 2
  | stepPinseq => exact ignoresPorts_step 3
  | stepBounce => exact ignoresPorts_step 4
  | stepBincnt => exact ignoresPorts_step 5
  | stepLcg => exact ignoresPorts_step 6
  | stepBreathe => exact ignoresPorts_step 7
  | readBtn => exact absurd rfl hread
  | writeAll v => exact fun _ _ => rfl
  | delay n => exact absurd rfl (hdelay n)
  | reset => exact fun _ _ => rfl
  | iter b => exact ignoresPorts_iter b

/-! ### Operations and cycles that do not read `btn` -/

/-- Replacing the levels ahead and then forgetting them is forgetting them. -/
theorem forgetStim_setStim (ps : List Pins) (o : Host.Outcome State Fault Refusal) :
    forgetStim (mapNext (fun t => { t with stim := ps }) o) = forgetStim o := by
  cases o <;> rfl

/-- Levels that are forgotten may be forgotten before cycles pass. -/
theorem forgetStim_passCycles (n : Nat) (o : Host.Outcome State Fault Refusal) :
    forgetStim (mapNext (passCycles n) o) = mapNext (passCycles n) (forgetStim o) := by
  cases o with
  | next s => simp [forgetStim, passCycles]
  | fault r => rfl
  | refused r => rfl

/-- What a cycle may perform: `RESET`, or an operation that has the code of the phase (40_sequencer.md R122). -/
theorem selected_cases {s : State} {i : Instr} (h : selected s = .ok i) :
    i = .reset ∨ encode i = some (.phase, s.ph) := by
  unfold selected at h
  split at h
  · exact .inl (Except.ok.inj h).symm
  · exact .inr (phase_of_decode h)

section SameResets

variable {s : State} {ps : List Pins} (hrst : ∀ k, (pinsAt { s with stim := ps } k).rst = (pinsAt s k).rst)

include hrst

theorem noReset_stim {n : Nat} (h : NoReset s n) : NoReset { s with stim := ps } n :=
  fun k hk => (hrst k).trans (h k hk)

theorem firstResetAt_stim {k : Nat} (h : FirstResetAt s k) : FirstResetAt { s with stim := ps } k :=
  ⟨noReset_stim hrst h.1, (hrst k).trans h.2⟩

/-- A delay depends on the levels of `rst` only: they say whether, and in which of its cycles, a reset ends it. -/
theorem delayCycles_stim (after : Phase) (n : Nat) :
    forgetStim (.next (delayCycles after n { s with stim := ps })) = forgetStim (.next (delayCycles after n s)) := by
  rcases noReset_or_first s (n + 1) with h | ⟨k, hk, h⟩
  · rw [delayCycles_noReset after h, delayCycles_noReset after (noReset_stim hrst h)]
    rfl
  · have hkn : k ≤ n := Nat.lt_succ_iff.mp hk
    rw [delayCycles_reset after hkn h, delayCycles_reset after hkn (firstResetAt_stim hrst h)]
    rfl

theorem blockingDelay_stim (n : Nat) :
    forgetStim (.next (blockingDelay n { s with stim := ps })) = forgetStim (.next (blockingDelay n s)) := by
  unfold blockingDelay
  cases delaySuccessor s.ph with
  | none => rfl
  | some after => exact delayCycles_stim hrst after n

theorem exec_delay_stim (n : Nat) :
    forgetStim (exec (.delay n) { s with stim := ps }) = forgetStim (exec (.delay n) s) := by
  change forgetStim (execDelay n _) = forgetStim (execDelay n s)
  unfold execDelay
  split
  · exact congrArg (mapNext (returning .none)) (blockingDelay_stim hrst n)
  · rfl

/-- Every operation but `READ_BTN` and `SAMPLE` does the same whatever the levels of `btn` (41_debouncer.md R150). -/
theorem exec_stim {i : Instr} (hread : i ≠ .readBtn) (hsample : i ≠ .sample) :
    forgetStim (exec i { s with stim := ps }) = forgetStim (exec i s) := by
  by_cases hd : ∃ n, i = .delay n
  · obtain ⟨n, rfl⟩ := hd
    exact exec_delay_stim hrst n
  · rw [exec_ignoresPorts hread hsample (not_exists.mp hd), forgetStim_setStim]

/-- Every cycle outside the phase `SAMPLE` does the same whatever the levels of `btn`: it resets, or performs an operation
of another phase, or is refused. -/
theorem step_stim (hph : s.ph ≠ phaseCode .sample) :
    forgetStim (step { s with stim := ps }) = forgetStim (step s) := by
  have hsel : selected { s with stim := ps } = selected s := by
    have hr : rstLevel { s with stim := ps } = rstLevel s := hrst 0
    simp only [selected, hr]
  unfold step
  rw [hsel]
  cases hi : selected s with
  | error r => rfl
  | ok i =>
    have hread : i ≠ .readBtn := by
      rintro rfl
      exact (selected_cases hi).elim nofun nofun
    have hsample : i ≠ .sample := by
      rintro rfl
      refine (selected_cases hi).elim nofun fun he => hph ?_
      simpa [encode] using he.symm
    simp only [forgetStim_passCycles, exec_stim hrst hread hsample]

end SameResets

/-! ### The read of the button -/

@[simp] theorem exec_readBtn (s : State) : exec .readBtn s = .next (returning (.bit (btnLevel s)) s) := rfl

/-- The level `READ_BTN` returns is the one `SAMPLE` records in the same cycle. -/
theorem readBtn_result_eq_sample_prev {s t u : State} (ht : exec .readBtn s = .next t) (hu : exec .sample s = .next u) :
    t.result = .bit u.prev := by
  obtain ⟨hprev, _⟩ := exec_sample_frame hu
  cases ht
  rw [hprev, returning_result]

/-- Settles O11: `READ_BTN` and `SAMPLE` are the only operations that read `btn`, and a cycle performs `SAMPLE` in its own
phase only. -/
theorem readBtnReturnsTheLevelAndWritesNothing : Obligations.ReadBtnReturnsTheLevelAndWritesNothing :=
  ⟨rfl, exec_readBtn, fun _ _ _ => readBtn_result_eq_sample_prev,
    fun _ _ hrst => ⟨fun _ => exec_stim hrst, step_stim hrst⟩⟩

end Sys2Proof.Machine
end

section
/-! SUPPORT. The pattern-mode counter (spec/42_mode_counter.md): which phase can follow which, what `ADVANCE` does in closed
form, and that it leaves the generators to the `RENDER` that follows. -/

namespace Sys2Proof.Machine

/-! ### The order of the phases -/

/-- The phases a cycle of the phase `p` can end in where no reset intervenes: a delay phase may stay (40_sequencer.md
R122). -/
def nextPhases : Phase → List Phase
  | .sample => [.hold, .render]
  | .hold => [.hold, .advance]
  | .advance => [.settle]
  | .settle => [.settle, .render]
  | .render => [.frame]
  | .frame => [.frame, .sample]

theorem phaseCode_injective : Function.Injective phaseCode := by
  intro p q
  cases p <;> cases q <;> decide

/-- `ADVANCE` comes after `HOLD` only (41_debouncer.md R159). -/
theorem advance_mem_nextPhases {p : Phase} : .advance ∈ nextPhases p ↔ p = .hold := by
  cases p <;> decide

/-- A code that names an operation is the code of a phase (30_encoding.md R90). -/
theorem exists_phaseCode_of_decode {ph : BitVec 3} {i : Instr} (h : decodePhase ph = .ok i) :
    ∃ p, ph = phaseCode p := by
  rcases mode_cases ph with rfl | rfl | rfl | rfl | rfl | rfl | rfl | rfl
  · exact ⟨.sample, rfl⟩
  · exact ⟨.hold, rfl⟩
  · exact ⟨.advance, rfl⟩
  · exact ⟨.settle, rfl⟩
  · exact ⟨.render, rfl⟩
  · exact ⟨.frame, rfl⟩
  · exact nomatch h
  · exact nomatch h

theorem delayCycle_ph (after : Phase) (s : State) :
    (delayCycle after s).ph = s.ph ∨ (delayCycle after s).ph = phaseCode after := by
  rcases delayCycle_cases after s with ⟨_, h⟩ | ⟨_, h⟩ <;> rw [h]
  · exact .inr rfl
  · exact .inl rfl

theorem exec_sample_ph {s t : State} (h : exec .sample s = .next t) :
    t.ph = phaseCode .hold ∨ t.ph = phaseCode .render := by
  change execSample s = _ at h
  unfold execSample at h
  split at h <;> cases h
  · exact .inl rfl
  · exact .inr rfl

/-- The operation of the phase `p` ends in one of the phases that may follow `p`. -/
theorem exec_nextPhases {p : Phase} {i : Instr} {s t : State} (hs : s.ph = phaseCode p)
    (hp : decodePhase (phaseCode p) = .ok i) (h : exec i s = .next t) : ∃ q ∈ nextPhases p, t.ph = phaseCode q := by
  cases p with
  | sample => cases hp; simpa [nextPhases] using exec_sample_ph h
  | hold => cases hp; cases h; simpa [nextPhases, ← hs] using delayCycle_ph .advance s
  | advance => cases hp; cases h; exact ⟨.settle, by simp [nextPhases], rfl⟩
  | settle => cases hp; cases h; simpa [nextPhases, ← hs] using delayCycle_ph .render s
  | render =>
    cases hp
    obtain ⟨_, _, _, rfl⟩ := exec_render_next h
    exact ⟨.frame, by simp [nextPhases], rfl⟩
  | frame => cases hp; cases h; simpa [nextPhases, ← hs] using delayCycle_ph .sample s

/-- A cycle without reset goes from a phase to one that may follow it (40_sequencer.md R122). -/
theorem step_nextPhases {s t : State} (h : step s = .next t) (hr : rstLevel s = false) :
    ∃ p, s.ph = phaseCode p ∧ ∃ q ∈ nextPhases p, t.ph = phaseCode q := by
  rcases step_cases h with ⟨hr', _⟩ | ⟨_, i, u, hp, hu, rfl⟩
  · exact absurd (hr.symm.trans hr') Bool.false_ne_true
  obtain ⟨p, hs⟩ := exists_phaseCode_of_decode hp
  exact ⟨p, hs, exec_nextPhases (t := u) hs (hs ▸ hp) hu⟩

/-! ### `ADVANCE` -/

/-- `ADVANCE` in closed form (42_mode_counter.md R170). -/
@[simp] theorem exec_advance (s : State) : exec .advance s = .next
    { s with mode := s.mode + 1, out := 0x00, trace := s.trace ++ [0x00], dly := Config.settleTicks,
             ph := phaseCode .settle, result := .none } := rfl

theorem step_enters_advance {s t : State} (h : step s = .next t) (hr : rstLevel s = false)
    (ht : t.ph = phaseCode .advance) : s.ph = phaseCode .hold := by
  obtain ⟨p, hs, q, hq, htq⟩ := step_nextPhases h hr
  obtain rfl : q = .advance := phaseCode_injective (htq.symm.trans ht)
  rw [hs, advance_mem_nextPhases.mp hq]

/-- Settles O16: the 3-bit increment is the one modulo 8, and of the phases only `HOLD` has `ADVANCE` as a successor. -/
theorem advanceStepsTheModeAndBlanksTheLines : Obligations.AdvanceStepsTheModeAndBlanksTheLines :=
  ⟨rfl, fun s => ⟨s.mode + 1, BitVec.toNat_add s.mode 1, exec_advance s⟩, fun _ _ => step_enters_advance⟩

/-! ### The generators across a mode change -/

/-- `RENDER` leaves the bank that the step of its mode leaves (44_dispatcher.md R190). -/
theorem exec_render_bank_eq_step {s t u : State} (ht : exec .render s = .next t)
    (hu : exec (decodeMode s.mode) s = .next u) : t.g = u.g := by
  obtain ⟨v, g, hg, rfl⟩ := exec_render_next ht
  obtain ⟨v', g', hg', rfl⟩ := exec_step_next hu
  cases hg.symm.trans hg'
  rfl

/-- A cycle of the settle delay completes and leaves the architectural state (42_mode_counter.md R171). -/
theorem exec_settle_sameArch (s : State) : ∃ t, exec .settle s = .next t ∧ SameArch s t :=
  ⟨_, rfl, exec_delayPhase_sameArch (i := .settle) (by simp) rfl⟩

/-- Settles O18: the closed form of `ADVANCE` mentions no generator, `SETTLE` keeps the architectural state, and `RENDER`
runs the generator its mode selects on the bank it finds. -/
theorem advanceTouchesNoGenerator : Obligations.AdvanceTouchesNoGenerator := by
  refine ⟨fun s g' => ⟨_, exec_advance s, rfl, exec_advance _⟩, fun s => ?_, fun s t u ht hu => ?_⟩
  · obtain ⟨t, ht, _, hmode, _, hg⟩ := exec_settle_sameArch s
    exact ⟨t, ht, hg, hmode⟩
  · rw [exec_render_bank_eq_step ht hu]

end Sys2Proof.Machine
end

section
/-! SUPPORT. The output bank (spec/43_output_bank.md): `WRITE_ALL` in closed form, and that `OUT` follows the output trace
under every operation that performs no reset. -/

namespace Sys2Proof.Machine

/-! ### `WRITE_ALL` -/

/-- `WRITE_ALL v` in closed form (43_output_bank.md R180). -/
@[simp] theorem exec_writeAll (v : Mask) (s : State) : exec (.writeAll v) s = .next
    { s with out := v, trace := s.trace ++ [v], result := .none } := rfl

/-- `ADVANCE` does to the output what writing the all-off mask does (42_mode_counter.md R170). -/
theorem exec_advance_output_eq_writeAll {s t u : State} (ht : exec .advance s = .next t)
    (hu : exec (.writeAll 0x00) s = .next u) : t.out = u.out ∧ t.trace = u.trace := by
  cases ht
  cases hu
  exact ⟨rfl, rfl⟩

/-- `RENDER` does to the output what writing the mask of its mode's step does (44_dispatcher.md R190). -/
theorem exec_render_output_eq_writeAll {s t u w : State} {v : Mask} (hw : exec (decodeMode s.mode) s = .next w)
    (hv : w.result = .mask v) (ht : exec .render s = .next t) (hu : exec (.writeAll v) s = .next u) :
    t.out = u.out ∧ t.trace = u.trace := by
  obtain ⟨v', g', hg', rfl⟩ := exec_step_next hw
  rw [exec_render_of hg'] at ht
  cases hv
  cases ht
  cases hu
  exact ⟨rfl, rfl⟩

/-- Settles O19: the closed form of `WRITE_ALL` mentions no old `OUT`, and `ADVANCE` and `RENDER` leave the `OUT` and
trace it leaves. -/
theorem writeAllReplacesTheWholeMask : Obligations.WriteAllReplacesTheWholeMask := by
  refine ⟨fun _ => rfl, fun v s => ⟨exec_writeAll v s, fun old t u ht hu => ?_⟩,
    fun _ _ _ => exec_advance_output_eq_writeAll, fun _ _ _ _ _ => exec_render_output_eq_writeAll⟩
  cases ht
  cases hu
  exact ⟨fun _ => rfl, rfl⟩

/-! ### `OUT` follows the output trace -/

/-- From `s` to `t` masks were appended to the trace, and `OUT` is the last of them, or as it was where there are none
(43_output_bank.md R181). -/
def OutFollowsTrace (s t : State) : Prop := ∃ ws : List Mask, t.trace = s.trace ++ ws ∧ t.out = ws.getLastD s.out

theorem outFollowsTrace_of_no_write {s t : State} (htrace : t.trace = s.trace) (hout : t.out = s.out) :
    OutFollowsTrace s t :=
  ⟨[], by rw [htrace, List.append_nil], hout⟩

/-- `SAMPLE` records the level and moves the sequencer; it writes no mask (41_debouncer.md R152). -/
theorem outFollowsTrace_sample {s t : State} (h : exec .sample s = .next t) : OutFollowsTrace s t := by
  change execSample s = _ at h
  unfold execSample at h
  split at h <;> cases h <;> exact outFollowsTrace_of_no_write rfl rfl

theorem outFollowsTrace_delayCycle (after : Phase) (s : State) :
    OutFollowsTrace s (returning .none (delayCycle after s)) := by
  obtain ⟨⟨_, _, hout, _⟩, htrace, _⟩ := delayCycle_frame after s
  exact outFollowsTrace_of_no_write htrace hout

theorem outFollowsTrace_delay {n : Nat} {s t : State} (h : exec (.delay n) s = .next t)
    (hr : ¬ PerformsReset (.delay n) s) : OutFollowsTrace s t := by
  obtain ⟨_, rfl⟩ := exec_delay_next h
  obtain ⟨⟨_, _, hout, _⟩, htrace⟩ := blockingDelay_frame hr
  exact outFollowsTrace_of_no_write htrace hout

/-- A step alone hands its mask back and leaves the output bank (45_generators.md R200). -/
theorem outFollowsTrace_step {m : BitVec 3} {s t : State} (h : exec (decodeMode m) s = .next t) :
    OutFollowsTrace s t := by
  obtain ⟨_, _, _, rfl⟩ := exec_step_next h
  exact outFollowsTrace_of_no_write rfl rfl

theorem outFollowsTrace_render {s t : State} (h : exec .render s = .next t) : OutFollowsTrace s t := by
  obtain ⟨v, _, _, rfl⟩ := exec_render_next h
  exact ⟨[v], rfl, rfl⟩

/-- `ITER` writes the all-off mask first on a press, and last the mask it renders (40_sequencer.md R125). -/
theorem outFollowsTrace_iter {b : Level} {s t : State} (h : exec (.iter b) s = .next t) : OutFollowsTrace s t := by
  obtain ⟨v, _, _, rfl⟩ := exec_iter_next h
  refine ⟨if rising s.prev b then [0, v] else [v], rfl, ?_⟩
  split <;> rfl

/-- `OUT` follows the trace under every operation that performs no reset. -/
theorem exec_outFollowsTrace {i : Instr} {s t : State} (h : exec i s = .next t) (hr : ¬ PerformsReset i s) :
    OutFollowsTrace s t := by
  cases i with
  | sample => exact outFollowsTrace_sample h
  | hold => cases h; exact outFollowsTrace_delayCycle .advance s
  | advance => cases h; exact ⟨[allOff], rfl, rfl⟩
  | settle => cases h; exact outFollowsTrace_delayCycle .render s
  | render => exact outFollowsTrace_render h
  | frame => cases h; exact outFollowsTrace_delayCycle .sample s
  | stepCw => exact outFollowsTrace_step (m := 0) h
  | stepCcw => exact outFollowsTrace_step (m := 1) h
  | stepBlink => exact outFollowsTrace_step (m := 2) h
  | stepPinseq => exact outFollowsTrace_step (m := 3) h
  | stepBounce => exact outFollowsTrace_step (m := 4) h
  | stepBincnt => exact outFollowsTrace_step (m := 5) h
  | stepLcg => exact outFollowsTrace_step (m := 6) h
  | stepBreathe => exact outFollowsTrace_step (m := 7) h
  | readBtn => cases h; exact outFollowsTrace_of_no_write rfl rfl
  | writeAll v => cases h; exact ⟨[v], rfl, rfl⟩
  | delay n => exact outFollowsTrace_delay h hr
  | reset => exact absurd (.inl rfl) hr
  | iter b => exact outFollowsTrace_iter h

/-- A cycle without reset performs the operation of its phase, which performs no reset; that the cycle passes touches
neither `OUT` nor the trace. -/
theorem step_outFollowsTrace {s t : State} (h : step s = .next t) (hrst : rstLevel s = false) :
    OutFollowsTrace s t := by
  rcases step_cases h with ⟨hr, _⟩ | ⟨_, i, u, hp, hu, rfl⟩
  · exact absurd (hrst.symm.trans hr) Bool.false_ne_true
  · exact exec_outFollowsTrace (t := u) hu (not_performsReset_of_encode (phase_of_decode hp))

/-- Where the step of the mode yields a mask, `RENDER` writes that mask as a whole (44_dispatcher.md R190). -/
theorem exec_render_writes_step_mask {s t : State} (h : exec (decodeMode s.mode) s = .next t) :
    ∃ (v : Mask) (u : State), t.result = .mask v ∧ t.trace = s.trace ∧ exec .render s = .next u ∧ u.out = v ∧
      u.trace = s.trace ++ [v] := by
  obtain ⟨v, _, hg, rfl⟩ := exec_step_next h
  exact ⟨v, _, rfl, rfl, exec_render_of hg, rfl, rfl⟩

/-- Settles O20: by cases on the operation `OUT` follows the trace, a cycle performs one such operation, and the mask of a
step is the one its `RENDER` writes. -/
theorem outputChangesOnlyByWholeMaskWrites : Obligations.OutputChangesOnlyByWholeMaskWrites :=
  ⟨fun _ _ _ => exec_outFollowsTrace, fun _ _ => step_outFollowsTrace, fun _ _ => exec_render_writes_step_mask⟩

end Sys2Proof.Machine
end

section
/-! SUPPORT. The generator dispatcher (spec/44_dispatcher.md): from which phases `RENDER` is entered, and that what a
generator yields and leaves in its own entry depends on that entry alone. -/

namespace Sys2Proof.Machine

/-! ### How `RENDER` is entered -/

theorem render_mem_nextPhases {p : Phase} : .render ∈ nextPhases p ↔ p = .sample ∨ p = .settle := by
  cases p <;> decide

/-- A press sends `SAMPLE` to `HOLD` (40_sequencer.md R122). -/
theorem exec_sample_ph_of_press {s t : State} (h : exec .sample s = .next t)
    (hpress : rising s.prev (btnLevel s) = true) : t.ph = phaseCode .hold := by
  change execSample s = _ at h
  rw [execSample, if_pos hpress] at h
  cases h
  rfl

theorem step_enters_render {s t : State} (h : step s = .next t) (hr : rstLevel s = false)
    (ht : t.ph = phaseCode .render) :
    (s.ph = phaseCode .sample ∧ rising s.prev (btnLevel s) = false) ∨ s.ph = phaseCode .settle := by
  obtain ⟨p, hs, q, hq, htq⟩ := step_nextPhases h hr
  obtain rfl : q = .render := phaseCode_injective (htq.symm.trans ht)
  rcases render_mem_nextPhases.mp hq with rfl | rfl
  · refine .inl ⟨hs, Bool.eq_false_iff.mpr fun hpress => ?_⟩
    rw [step_of_phase hr (hs ▸ decodePhase_phaseCode_sample)] at h
    obtain ⟨u, hu, rfl⟩ := mapNext_eq_next h
    exact nomatch phaseCode_injective ((exec_sample_ph_of_press hu hpress).symm.trans ht)
  · exact .inr hs

/-! ### What a generator reads -/

/-- What a generator step shows of itself: the mask it yields and the entry it leaves in the place of its own. -/
def entryStep (m : BitVec 3) (g : Bank) : Except Refusal (Mask × Entry) :=
  (generatorOf m g).map fun r => (r.1, bankEntry r.2 m)

/-- A generator reads its own entry only (45_generators.md R200). -/
theorem entryStep_congr {m : BitVec 3} {g g' : Bank} (h : bankEntry g' m = bankEntry g m) :
    entryStep m g' = entryStep m g := by
  obtain ⟨cwi, cci, blk, psi, bpos, bdir, bcnt, lcgs, brc, brd⟩ := g
  obtain ⟨cwi', cci', blk', psi', bpos', bdir', bcnt', lcgs', brc', brd'⟩ := g'
  rcases mode_cases m with rfl | rfl | rfl | rfl | rfl | rfl | rfl | rfl
  · cases h; rfl
  · cases h; rfl
  · cases h; rfl
  · cases h; rfl
  · cases h
    change Except.map _ (genBounce _) = Except.map _ (genBounce _)
    unfold genBounce
    split <;> rfl
  · cases h; rfl
  · cases h; rfl
  · cases h
    change Except.map _ (genBreathe _) = Except.map _ (genBreathe _)
    unfold genBreathe
    split <;> rfl

/-- Where a generator yields, it yields the same mask and leaves the same entry of its own from every bank that has
the same entry. -/
theorem generatorOf_of_same_entry {m : BitVec 3} {g g' g₁ : Bank} {v : Mask} (h : generatorOf m g = .ok (v, g₁))
    (he : bankEntry g' m = bankEntry g m) :
    ∃ g₁', generatorOf m g' = .ok (v, g₁') ∧ bankEntry g₁' m = bankEntry g₁ m := by
  have hs : entryStep m g' = .ok (v, bankEntry g₁ m) := by
    rw [entryStep_congr he, entryStep, h]
    rfl
  unfold entryStep at hs
  cases hg : generatorOf m g' with
  | error r => rw [hg] at hs; cases hs
  | ok r =>
    obtain ⟨v', g₁'⟩ := r
    rw [hg] at hs
    obtain ⟨rfl, hentry⟩ : v' = v ∧ bankEntry g₁' m = bankEntry g₁ m := by simpa [Except.map] using hs
    exact ⟨g₁', rfl, hentry⟩

/-! ### `RENDER` -/

/-- Settles O24: on the state space the generator of the mode yields, so its step and `RENDER` have their closed forms;
it keeps the other entries, and reads its own only. -/
theorem renderPerformsTheStepItsModeSelects : Obligations.RenderPerformsTheStepItsModeSelects := by
  refine ⟨rfl, fun _ _ => step_enters_render, fun s ⟨_, hbounce, hbreathe⟩ => ?_⟩
  obtain ⟨v, g₁, hg⟩ := generatorOf_ok s.mode s.g hbounce hbreathe
  refine ⟨_, v, exec_step_of hg, rfl, exec_render_of hg, fun _ => generatorOf_keeps_others hg, fun g' old he => ?_⟩
  obtain ⟨g₁', hg', hentry⟩ := generatorOf_of_same_entry hg he
  exact ⟨_, exec_render_of (s := { s with g := g', out := old }) hg', rfl, hentry⟩

end Sys2Proof.Machine
end

section
/-! SUPPORT. The generators over many calls (spec/45_generators.md): the masks of consecutive calls as iterates of one
function on the generator's entry; and the linear-congruential generator, whose state is an affine function of the last
and has period 256 from everywhere. -/

namespace Sys2Proof.Machine

open Function

/-! ### The masks of consecutive calls -/

/-- Where every call of an operation yields `mask` of some part of the state and moves that part on by `next`,
consecutive calls yield the masks of its iterates. -/
theorem yields_eq_map_iterate {i : Instr} {α : Type} {part : State → α} {next : α → α} {mask : α → Mask}
    (hcall : ∀ s, ∃ t, exec i s = .next t ∧ t.result = .mask (mask (part s)) ∧ part t = next (part s))
    (n : Nat) (s : State) : yields i n s = (List.range n).map fun k => mask (next^[k] (part s)) := by
  induction n generalizing s with
  | zero => rfl
  | succ n ih =>
    obtain ⟨t, ht, hmask, hpart⟩ := hcall s
    have hsplit : yields i (n + 1) s = maskOf t.result ++ yields i n t := by simp only [yields, ht]
    rw [hsplit, hmask, ih t, hpart, List.range_succ_eq_map, List.map_cons, List.map_map]
    rfl

/-! ### `STEP.LCG` in closed form -/

/-- `STEP.LCG` in closed form (45_generators.md R224). -/
@[simp] theorem exec_stepLcg (s : State) : exec .stepLcg s = .next
    { s with g := { s.g with lcgs := lcgNext s.g.lcgs }, result := .mask (lcgNext s.g.lcgs) } :=
  exec_step_of (m := 6) rfl

theorem lcgNext_toNat (x : BitVec 8) : (lcgNext x).toNat = (x.toNat * 1103515245 + 12345) % 256 := by
  simp [lcgNext, lcgMultiplier, lcgIncrement, lcgModulus, Nat.mul_comm]

theorem yields_stepLcg (n : Nat) (s : State) :
    yields .stepLcg n s = (List.range n).map fun k => lcgNext^[k + 1] s.g.lcgs := by
  simp only [iterate_succ_apply']
  exact yields_eq_map_iterate (part := fun s => s.g.lcgs) (fun s => ⟨_, exec_stepLcg s, rfl, rfl⟩) n s

/-! ### The period of the generator -/

/-- The 8-bit affine function with the coefficients `p`. -/
def affine (p : BitVec 8 × BitVec 8) (x : BitVec 8) : BitVec 8 := p.1 * x + p.2

/-- The coefficients of an affine function performed twice. -/
def affineTwice (p : BitVec 8 × BitVec 8) : BitVec 8 × BitVec 8 := (p.1 * p.1, p.1 * p.2 + p.2)

theorem affine_affineTwice (p : BitVec 8 × BitVec 8) (x : BitVec 8) :
    affine (affineTwice p) x = affine p (affine p x) := by
  simp only [affine, affineTwice]
  ring

/-- An affine function performed `2 ^ k` times is affine, with coefficients that `k` doublings give. -/
theorem affine_iterate_two_pow (p : BitVec 8 × BitVec 8) (k : Nat) : (affine p)^[2 ^ k] = affine (affineTwice^[k] p) := by
  induction k with
  | zero => rfl
  | succ k ih =>
    funext x
    rw [pow_succ, Nat.mul_two, iterate_add_apply, ih, iterate_succ_apply', affine_affineTwice]

/-- In eight bits only the residues of the multiplier and the increment count. -/
theorem lcgNext_eq_affine : lcgNext = affine (109, 57) := by
  funext x
  apply BitVec.eq_of_toNat_eq
  simp only [lcgNext_toNat, affine, BitVec.toNat_add, BitVec.toNat_mul, BitVec.ofNat_eq_ofNat, BitVec.toNat_ofNat]
  omega

/-- Half a period adds 128. -/
theorem lcgNext_iterate_128 (x : BitVec 8) : lcgNext^[2 ^ 7] x = x + 128 := by
  have hcoeff : affineTwice^[7] (109, 57) = (1, 128) := by decide
  rw [lcgNext_eq_affine, affine_iterate_two_pow, hcoeff, affine, one_mul]

/-- A whole period restores the state. -/
theorem lcgNext_iterate_256 (x : BitVec 8) : lcgNext^[2 ^ 8] x = x := by
  have hcoeff : affineTwice^[8] (109, 57) = (1, 0) := by decide
  rw [lcgNext_eq_affine, affine_iterate_two_pow, hcoeff, affine, one_mul, add_zero]

/-- The period is 256 from every state (45_generators.md R226): it divides 256 and not 128. -/
theorem minimalPeriod_lcgNext (x : BitVec 8) : minimalPeriod lcgNext x = 256 := by
  have hhalf : ¬ IsPeriodicPt lcgNext (2 ^ 7) x := fun h => by
    have hfix : x + 128 = x := (lcgNext_iterate_128 x).symm.trans h
    exact absurd (add_eq_left.mp hfix) (by decide)
  exact minimalPeriod_eq_prime_pow hhalf (lcgNext_iterate_256 x)

/-- The generator does not return to its state within fewer than 256 calls. -/
theorem lcgNext_iterate_ne_self {n : Nat} (x : BitVec 8) (hpos : n ≠ 0) (hlt : n < 256) : lcgNext^[n] x ≠ x :=
  not_isPeriodicPt_of_pos_of_lt_minimalPeriod hpos (by rwa [minimalPeriod_lcgNext])

/-- No mask stands twice among 256 consecutive ones: they are the orbit of the first. -/
theorem yields_stepLcg_nodup (s : State) : (yields .stepLcg 256 s).Nodup := by
  have horbit : (periodicOrbit lcgNext (lcgNext s.g.lcgs)).Nodup := nodup_periodicOrbit
  rw [periodicOrbit, minimalPeriod_lcgNext] at horbit
  rw [yields_stepLcg]
  exact horbit

/-- A list of 256 different masks has every mask once. -/
theorem count_eq_one_of_nodup_of_length {l : List Mask} (hnodup : l.Nodup) (hlen : l.length = 256) (v : Mask) :
    l.count v = 1 := by
  refine List.count_eq_one_of_mem hnodup (not_not.mp fun hv => ?_)
  have hle := (List.nodup_cons.mpr ⟨hv, hnodup⟩).length_le_card
  rw [List.length_cons, hlen, ← FinEnum.card_eq_fintypeCard, FinEnum.card_bitVec] at hle
  omega

/-! ### The obligation -/

/-- Settles O30: the step has its closed form, and the masks of consecutive calls are the iterates of the formula, whose
period is 256. -/
theorem lcgAdvancesByTheFormula : Obligations.LcgAdvancesByTheFormula := by
  refine ⟨fun s => ⟨lcgNext s.g.lcgs, lcgNext_toNat _, exec_stepLcg s⟩, by decide, fun hseed => ?_, ?_, fun s v => ?_⟩
  · rw [yields_stepLcg] at hseed
    obtain ⟨k, hk, hreturn⟩ := List.mem_map.mp hseed
    exact lcgNext_iterate_ne_self 123 k.succ_ne_zero (Nat.succ_lt_succ (List.mem_range.mp hk)) hreturn
  · rw [yields_stepLcg, List.range_succ, List.map_append, List.map_singleton, List.getLast?_concat]
    exact congrArg some (lcgNext_iterate_256 123)
  · have hlen : (yields .stepLcg 256 s).length = 256 := by rw [yields_stepLcg, List.length_map, List.length_range]
    exact count_eq_one_of_nodup_of_length (yields_stepLcg_nodup s) hlen v

end Sys2Proof.Machine
end

section
/-! SUPPORT. Progress on the state space (spec/60_exceptions.md R240): every well-formed operation, and so every clock
cycle, completes from a state of the state space and ends in one. -/

namespace Sys2Proof.Machine

/-- The outcome is a next state, and that state is in the state space. -/
def CompletesInSpace (o : Host.Outcome State Fault Refusal) : Prop := ∃ t, o = .next t ∧ InSpace t

/-! ### The state space under the shared updates -/

theorem phaseCode_le_five (p : Phase) : phaseCode p ≤ 5 := by
  cases p <;> decide

/-- The state space speaks of `PH` and the bank only: the same bank in a phase that exists is inside it. -/
theorem inSpace_of_phaseCode {s t : State} (hs : InSpace s) (hg : t.g = s.g) {p : Phase} (hph : t.ph = phaseCode p) :
    InSpace t := by
  obtain ⟨_, hbounce, hbreathe⟩ := hs
  rw [InSpace, hg, hph]
  exact ⟨phaseCode_le_five p, hbounce, hbreathe⟩

theorem inSpace_delayCycle {s : State} (hs : InSpace s) (after : Phase) : InSpace (delayCycle after s) := by
  rcases delayCycle_cases after s with ⟨_, h⟩ | ⟨_, h⟩ <;> rw [h]
  · exact inSpace_of_phaseCode hs rfl (goTo_ph after s)
  · exact hs

/-- A `DELAY` stays where it is, ends in the successor of its phase, or ends in the state after a reset. -/
theorem inSpace_blockingDelay {s : State} (hs : InSpace s) (n : Nat) : InSpace (blockingDelay n s) := by
  rcases blockingDelay_cases n s with ⟨_, h⟩ | ⟨_, _, after, _, h⟩ | ⟨_, k, _, _, h⟩ <;> rw [h]
  · exact hs
  · exact inSpace_of_phaseCode (t := passCycles (n + 1) (goTo after (loadDelay 0 s))) hs rfl rfl
  · exact resetRegisters_inSpace s

/-- From a state of the state space the generator of every mode yields, and leaves both sweeping generators inside
(45_generators.md R201). -/
theorem generatorOf_completes {s : State} (hs : InSpace s) (m : BitVec 3) : ∃ v g, generatorOf m s.g = .ok (v, g) ∧
    bounceInSpace g.bpos g.bdir = true ∧ breatheInSpace g.brc g.brd = true := by
  obtain ⟨_, hbounce, hbreathe⟩ := hs
  obtain ⟨v, g, hg⟩ := generatorOf_ok m s.g hbounce hbreathe
  exact ⟨v, g, hg, generatorOf_keeps_space hg hbounce hbreathe⟩

/-! ### The operations -/

section Operations

variable {s : State} (hs : InSpace s)

include hs

theorem completesInSpace_sample : CompletesInSpace (exec .sample s) := by
  obtain ⟨t, ht, _⟩ := exec_sample_records s
  obtain ⟨_, _, _, hg⟩ := exec_sample_frame ht
  exact ⟨t, ht, (exec_sample_ph ht).elim (inSpace_of_phaseCode hs hg) (inSpace_of_phaseCode hs hg)⟩

theorem completesInSpace_delayPhase {i : Instr} {after : Phase}
    (hi : exec i s = .next (returning .none (delayCycle after s))) : CompletesInSpace (exec i s) :=
  ⟨_, hi, inSpace_delayCycle hs after⟩

theorem completesInSpace_advance : CompletesInSpace (exec .advance s) :=
  ⟨_, exec_advance s, inSpace_of_phaseCode hs rfl (p := .settle) rfl⟩

theorem completesInSpace_render : CompletesInSpace (exec .render s) := by
  obtain ⟨v, g, hg, hspace⟩ := generatorOf_completes hs s.mode
  exact ⟨_, exec_render_of hg, phaseCode_le_five .frame, hspace⟩

theorem completesInSpace_step (m : BitVec 3) : CompletesInSpace (exec (decodeMode m) s) := by
  obtain ⟨v, g, hg, hspace⟩ := generatorOf_completes hs m
  exact ⟨_, exec_step_of hg, hs.1, hspace⟩

theorem completesInSpace_delay {n : Nat} (hn : n < 2 ^ Config.dlyWidth) : CompletesInSpace (exec (.delay n) s) :=
  ⟨returning .none (blockingDelay n s), if_pos hn, inSpace_blockingDelay hs n⟩

theorem completesInSpace_iter (b : Level) : CompletesInSpace (exec (.iter b) s) := by
  obtain ⟨v, g, hg, hspace⟩ := generatorOf_completes hs (if rising s.prev b then s.mode + 1 else s.mode)
  exact ⟨_, exec_iter_of hg, hs.1, hspace⟩

/-- Every well-formed operation completes in the state space: only a `DELAY` has an operand to check. -/
theorem exec_completesInSpace {i : Instr} (hwf : i.wf = true) : CompletesInSpace (exec i s) := by
  cases i with
  | sample => exact completesInSpace_sample hs
  | hold => exact completesInSpace_delayPhase hs rfl
  | advance => exact completesInSpace_advance hs
  | settle => exact completesInSpace_delayPhase hs rfl
  | render => exact completesInSpace_render hs
  | frame => exact completesInSpace_delayPhase hs rfl
  | stepCw => exact completesInSpace_step hs 0
  | stepCcw => exact completesInSpace_step hs 1
  | stepBlink => exact completesInSpace_step hs 2
  | stepPinseq => exact completesInSpace_step hs 3
  | stepBounce => exact completesInSpace_step hs 4
  | stepBincnt => exact completesInSpace_step hs 5
  | stepLcg => exact completesInSpace_step hs 6
  | stepBreathe => exact completesInSpace_step hs 7
  | readBtn => exact ⟨_, exec_readBtn s, hs⟩
  | writeAll v => exact ⟨_, exec_writeAll v s, hs⟩
  | delay n => exact completesInSpace_delay hs (of_decide_eq_true hwf)
  | reset => exact ⟨_, exec_reset s, resetRegisters_inSpace s⟩
  | iter b => exact completesInSpace_iter hs b

end Operations

/-! ### The clock cycle -/

/-- `DELAY` has no selector, so an operation that has one has no operand to check (30_encoding.md R91). -/
theorem wf_of_encode {i : Instr} {e : Space × BitVec 3} (h : encode i = some e) : i.wf = true := by
  cases i with
  | delay n => exact nomatch h
  | _ => rfl

/-- A cycle resets, or performs the operation that its phase names. -/
theorem step_completesInSpace {s : State} (hs : InSpace s) : CompletesInSpace (step s) := by
  cases hr : rstLevel s with
  | true => exact ⟨_, step_of_reset hr, resetRegisters_inSpace s⟩
  | false =>
    obtain ⟨i, hi⟩ := decodePhase_total hs.1
    obtain ⟨t, ht, hspace⟩ := exec_completesInSpace hs (wf_of_encode (phase_of_decode hi))
    exact ⟨passCycles 1 t, by rw [step_of_phase hr hi, ht, mapNext_next], hspace⟩

/-- Settles O44: the type of fault reasons is empty; the operations complete by cases, and a cycle performs one of them
or a reset. -/
theorem everyStateAndInputHasANextState : Obligations.EveryStateAndInputHasANextState :=
  ⟨nofun, fun _ hs => ⟨step_completesInSpace hs, fun _ => exec_completesInSpace hs⟩⟩

end Sys2Proof.Machine
end

section
/-! SUPPORT. The clock cycle phase by phase (spec/40_sequencer.md section 2): the operations of the phases in closed
form, the phase after each cycle, and the invariant of the loop. -/

namespace Sys2Proof.Machine

/-! ### The operations of the phases -/

theorem exec_sample_of_press {s : State} (h : rising s.prev (btnLevel s) = true) : exec .sample s = .next
    { s with prev := true, ph := phaseCode .hold, dly := Config.holdTicks, result := .bit true } := by
  obtain ⟨_, hbtn⟩ := Bool.and_eq_true_iff.mp h
  change execSample s = _
  rw [execSample, if_pos h, recordSample, h, hbtn]
  rfl

theorem exec_sample_of_no_press {s : State} (h : rising s.prev (btnLevel s) = false) : exec .sample s = .next
    { s with prev := btnLevel s, ph := phaseCode .render, result := .bit false } := by
  change execSample s = _
  rw [execSample, if_neg (by simp [h]), recordSample, h]
  rfl

@[simp] theorem exec_hold (s : State) : exec .hold s = .next (returning .none (delayCycle .advance s)) := rfl
@[simp] theorem exec_settle (s : State) : exec .settle s = .next (returning .none (delayCycle .render s)) := rfl
@[simp] theorem exec_frame (s : State) : exec .frame s = .next (returning .none (delayCycle .sample s)) := rfl

theorem delayCycle_of_zero {s : State} (h : s.dly = 0) (after : Phase) : delayCycle after s = goTo after s := if_pos h

theorem delayCycle_of_ne_zero {s : State} (h : s.dly ≠ 0) (after : Phase) :
    delayCycle after s = loadDelay (s.dly - 1) s := if_neg h

theorem rising_iff {prev cur : Level} : rising prev cur = true ↔ prev = false ∧ cur = true := by
  simp [rising]

/-- Settles O10: `SAMPLE` has one closed form on a rising edge and one on every other pair of levels. -/
theorem sampleCycleBranchesOnThePress : Obligations.SampleCycleBranchesOnThePress := by
  refine fun s => ⟨fun h => exec_sample_of_press (rising_iff.mpr h), fun h => ?_⟩
  exact exec_sample_of_no_press (Bool.eq_false_iff.mpr (mt rising_iff.mp h))

/-- The operation of a delay phase that has the successor `after` is one cycle of that delay. -/
theorem exec_of_delay_row {i : Instr} {after : Phase} (s : State)
    (h : (i, after) ∈ [(Instr.hold, Phase.advance), (Instr.settle, Phase.render), (Instr.frame, Phase.sample)]) :
    exec i s = .next (returning .none (delayCycle after s)) := by
  simp only [List.mem_cons, Prod.mk.injEq, List.not_mem_nil, or_false] at h
  rcases h with ⟨rfl, rfl⟩ | ⟨rfl, rfl⟩ | ⟨rfl, rfl⟩
  · exact exec_hold s
  · exact exec_settle s
  · exact exec_frame s

/-- Settles O12: the two cases of a delay's cycle; above 0 the counter goes down without wrapping. -/
theorem delayCycleCountsDownOrEndsThePhase : Obligations.DelayCycleCountsDownOrEndsThePhase := by
  intro s i after h
  rw [exec_of_delay_row s h]
  refine ⟨fun h0 => by rw [delayCycle_of_zero h0]; rfl, fun h0 => ⟨s.dly - 1, ?_, ?_⟩⟩
  · have hpos : s.dly.toNat ≠ 0 := mt (dly_eq_zero_iff s.dly).mpr h0
    have hsub : (s.dly - 1).toNat = s.dly.toNat - 1 := dly_sub_one_toNat s.dly h0
    omega
  · rw [delayCycle_of_ne_zero h0]
    rfl

/-! ### The operation a cycle performs -/

/-- Settles O3: the laws of the cycle with and without reset; dropping one level is taking the tail. -/
theorem cyclePerformsTheSelectedOperation : Obligations.CyclePerformsTheSelectedOperation :=
  fun s => ⟨step_of_reset, fun hr _ hp => step_of_phase hr hp, by rw [passCycles, List.drop_one]⟩

theorem decodePhase_reserved {ph : BitVec 3} (h : ph = 6 ∨ ph = 7) : decodePhase ph = .error (.reservedPhase ph) := by
  rcases h with rfl | rfl <;> rfl

/-- Settles O5: without a reset the cycle looks the phase up, and the table rejects the two reserved codes. -/
theorem reservedPhaseIsRefused : Obligations.ReservedPhaseIsRefused := by
  intro s hr hph
  simp [step, selected, hr, decodePhase_reserved hph, refusalOf]

/-! ### The phase after a cycle -/

/-- In the phase `p` without reset, a cycle that answers does what the operation of `p` does, and the cycle passes. -/
theorem step_phase_next {s t : State} {p : Phase} {i : Instr} (h : step s = .next t) (hr : rstLevel s = false)
    (hs : s.ph = phaseCode p) (hp : decodePhase (phaseCode p) = .ok i) :
    ∃ u, exec i s = .next u ∧ t = passCycles 1 u :=
  mapNext_eq_next (step_of_phase hr (hs ▸ hp) ▸ h)

theorem delayCycle_ph_eq (after : Phase) (s : State) :
    (delayCycle after s).ph = if s.dly = 0 then phaseCode after else s.ph := by
  unfold delayCycle
  split <;> rfl

theorem exec_sample_ph_eq {s t : State} (h : exec .sample s = .next t) :
    t.ph = phaseCode (if s.prev = false ∧ btnLevel s = true then Phase.hold else Phase.render) := by
  rw [if_congr rising_iff.symm rfl rfl]
  cases hb : rising s.prev (btnLevel s) with
  | true => cases (exec_sample_of_press hb).symm.trans h; rfl
  | false => cases (exec_sample_of_no_press hb).symm.trans h; rfl

/-- Settles O4: one clause for each phase, from the closed form of its operation. -/
theorem phasesFollowTheLoop : Obligations.PhasesFollowTheLoop := by
  intro s t h hr
  refine ⟨fun hs => ?_, fun hs => ?_, fun hs => ?_, fun hs => ?_, fun hs => ?_, fun hs => ?_⟩
  · obtain ⟨u, hu, rfl⟩ := step_phase_next h hr hs decodePhase_phaseCode_sample
    exact exec_sample_ph_eq (t := u) hu
  · obtain ⟨u, hu, rfl⟩ := step_phase_next h hr hs decodePhase_phaseCode_hold
    cases hu
    exact delayCycle_ph_eq .advance s
  · obtain ⟨u, hu, rfl⟩ := step_phase_next h hr hs decodePhase_phaseCode_advance
    cases hu
    rfl
  · obtain ⟨u, hu, rfl⟩ := step_phase_next h hr hs decodePhase_phaseCode_settle
    cases hu
    exact delayCycle_ph_eq .render s
  · obtain ⟨u, hu, rfl⟩ := step_phase_next h hr hs decodePhase_phaseCode_render
    obtain ⟨_, _, _, rfl⟩ := exec_render_next hu
    rfl
  · obtain ⟨u, hu, rfl⟩ := step_phase_next h hr hs decodePhase_phaseCode_frame
    cases hu
    exact delayCycle_ph_eq .sample s

/-! ### The invariant of the loop -/

/-- What the invariant of the loop asks of a state in the phase `p`, beyond the state space. -/
def PhaseClause : Phase → State → Prop
  | .sample, s => s.dly = 0
  | .hold, s => s.prev = true ∧ s.dly ≤ Config.holdTicks
  | .advance, s => s.prev = true ∧ s.dly = 0
  | .settle, s => s.prev = true ∧ s.out = 0x00 ∧ s.dly ≤ Config.settleTicks
  | .render, s => s.dly = 0
  | .frame, s => s.dly ≤ Config.frameTicks s.mode

/-- The invariant of the loop is the state space and the clause of the phase. -/
theorem loopInv_iff {s : State} : LoopInv s ↔ InSpace s ∧ ∀ p, s.ph = phaseCode p → PhaseClause p s := by
  refine and_congr_right fun _ => ⟨fun ⟨hsample, hhold, hadvance, hsettle, hrender, hframe⟩ p => ?_,
    fun h => ⟨h .sample, h .hold, h .advance, h .settle, h .render, h .frame⟩⟩
  cases p with
  | sample => exact hsample
  | hold => exact hhold
  | advance => exact hadvance
  | settle => exact hsettle
  | render => exact hrender
  | frame => exact hframe

/-- The state is in a phase whose clause it meets. -/
def MeetsPhaseClause (s : State) : Prop := ∃ p, s.ph = phaseCode p ∧ PhaseClause p s

/-- A state of the state space is in one phase only, because the phase codes are distinct. -/
theorem loopInv_iff_meetsPhaseClause {s : State} : LoopInv s ↔ InSpace s ∧ MeetsPhaseClause s := by
  rw [loopInv_iff]
  refine and_congr_right fun hs => ⟨fun h => ?_, fun ⟨p, hp, hc⟩ q hq => ?_⟩
  · obtain ⟨i, hi⟩ := decodePhase_total hs.1
    obtain ⟨p, hp⟩ := exists_phaseCode_of_decode hi
    exact ⟨p, hp, h p hp⟩
  · exact phaseCode_injective (hp.symm.trans hq) ▸ hc

/-- The clauses speak of registers of the spec only. -/
theorem meetsPhaseClause_congr {s t : State} (h : MeetsPhaseClause s) (harch : SameArch s t)
    (hseq : SameSequencer s t) : MeetsPhaseClause t := by
  obtain ⟨hprev, hmode, hout, _⟩ := harch
  obtain ⟨hph, hdly⟩ := hseq
  obtain ⟨p, hp, hc⟩ := h
  refine ⟨p, hph.trans hp, ?_⟩
  cases p <;> simpa only [PhaseClause, hprev, hmode, hout, hdly] using hc

theorem meetsPhaseClause_passCycles (n : Nat) {s : State} (h : MeetsPhaseClause s) :
    MeetsPhaseClause (passCycles n s) :=
  meetsPhaseClause_congr h ⟨rfl, rfl, rfl, rfl⟩ ⟨rfl, rfl⟩

theorem meetsPhaseClause_resetRegisters (s : State) : MeetsPhaseClause (resetRegisters s) :=
  ⟨.sample, rfl, resetRegisters_dly s⟩

/-- Settles O42: the state after reset samples with `DLY = 0`. -/
theorem resetStateMeetsTheLoopInvariant : Obligations.ResetStateMeetsTheLoopInvariant :=
  loopInv_iff_meetsPhaseClause.mpr ⟨resetRegisters_inSpace State.reset, meetsPhaseClause_resetRegisters State.reset⟩

theorem meetsPhaseClause_sample {s t : State} (hdly : s.dly = 0) (h : exec .sample s = .next t) :
    MeetsPhaseClause t := by
  cases hb : rising s.prev (btnLevel s) with
  | true =>
    cases (exec_sample_of_press hb).symm.trans h
    exact ⟨.hold, rfl, rfl, BitVec.le_refl _⟩
  | false =>
    cases (exec_sample_of_no_press hb).symm.trans h
    exact ⟨.render, rfl, hdly⟩

theorem dly_sub_one_le {d : BitVec Config.dlyWidth} (h : d ≠ 0) : d - 1 ≤ d := by
  have hsub : (d - 1).toNat = d.toNat - 1 := dly_sub_one_toNat d h
  rw [BitVec.le_def]
  omega

/-- A cycle of a delay counts down in its phase, whose clause bounds `DLY` from above, or leaves it with `DLY = 0`. -/
theorem meetsPhaseClause_delayCycle {now after : Phase} {s : State} (hs : s.ph = phaseCode now)
    (hcount : ∀ d ≤ s.dly, PhaseClause now (loadDelay d s))
    (hend : s.dly = 0 → PhaseClause after (goTo after s)) :
    MeetsPhaseClause (returning .none (delayCycle after s)) := by
  suffices h : MeetsPhaseClause (delayCycle after s) from
    meetsPhaseClause_congr h ⟨rfl, rfl, rfl, rfl⟩ ⟨rfl, rfl⟩
  rcases delayCycle_cases after s with ⟨h0, h⟩ | ⟨h0, h⟩ <;> rw [h]
  · exact ⟨after, rfl, hend h0⟩
  · exact ⟨now, hs, hcount _ (dly_sub_one_le h0)⟩

/-- The operation of a phase whose clause holds ends in a phase whose clause holds. -/
theorem exec_meetsPhaseClause {p : Phase} {i : Instr} {s t : State} (hs : s.ph = phaseCode p) (hc : PhaseClause p s)
    (hp : decodePhase (phaseCode p) = .ok i) (h : exec i s = .next t) : MeetsPhaseClause t := by
  cases p with
  | sample => cases hp; exact meetsPhaseClause_sample hc h
  | hold =>
    cases hp; cases h
    obtain ⟨hprev, hdly⟩ := hc
    exact meetsPhaseClause_delayCycle (now := .hold) (after := .advance) hs
      (fun d hd => ⟨hprev, BitVec.le_trans hd hdly⟩) (⟨hprev, ·⟩)
  | advance =>
    cases hp; cases h
    obtain ⟨hprev, _⟩ := hc
    exact ⟨.settle, rfl, hprev, rfl, BitVec.le_refl _⟩
  | settle =>
    cases hp; cases h
    obtain ⟨hprev, hout, hdly⟩ := hc
    exact meetsPhaseClause_delayCycle (now := .settle) (after := .render) hs
      (fun d hd => ⟨hprev, hout, BitVec.le_trans hd hdly⟩) id
  | render =>
    cases hp
    obtain ⟨_, _, _, rfl⟩ := exec_render_next h
    exact ⟨.frame, rfl, BitVec.le_refl _⟩
  | frame =>
    cases hp; cases h
    exact meetsPhaseClause_delayCycle (now := .frame) (after := .sample) hs
      (fun d hd => BitVec.le_trans hd hc) id

theorem step_meetsPhaseClause {s t : State} (hs : MeetsPhaseClause s) (h : step s = .next t) : MeetsPhaseClause t := by
  obtain ⟨p, hp, hc⟩ := hs
  rcases step_cases h with ⟨_, rfl⟩ | ⟨_, i, u, hi, hu, rfl⟩
  · exact meetsPhaseClause_passCycles 1 (meetsPhaseClause_resetRegisters s)
  · exact meetsPhaseClause_passCycles 1 (exec_meetsPhaseClause hp hc (hp ▸ hi) hu)

theorem step_inSpace {s t : State} (hs : InSpace s) (h : step s = .next t) : InSpace t := by
  obtain ⟨u, hu, hspace⟩ := step_completesInSpace hs
  cases hu.symm.trans h
  exact hspace

/-- Settles O43: a cycle keeps the state space, and leads from a phase whose clause holds to one whose clause holds. -/
theorem everyCycleKeepsTheLoopInvariant : Obligations.EveryCycleKeepsTheLoopInvariant := by
  intro s t hinv h
  obtain ⟨hspace, hclause⟩ := loopInv_iff_meetsPhaseClause.mp hinv
  exact loopInv_iff_meetsPhaseClause.mpr ⟨step_inSpace hspace h, step_meetsPhaseClause hclause h⟩

end Sys2Proof.Machine
end

section
/-! SUPPORT. The reset (spec/70_reset_and_hazards.md section 1) and the delays (spec/40_sequencer.md section 2) over
many cycles: what the cycles of a delay phase do one after the other, and that `DELAY` does the same at once. -/

namespace Sys2Proof.Machine

/-! ### Runs of cycles -/

theorem cycles_one (s : State) : cycles 1 s = step s := by
  rw [cycles]
  cases step s <;> rfl

/-- A run goes on from the state its first part ends in. -/
theorem cycles_add_of {m : Nat} {s t : State} (h : cycles m s = .next t) (n : Nat) :
    cycles (m + n) s = cycles n t := by
  rw [cycles_add, h, andThen_next]

theorem cycles_succ_of {n : Nat} {s t : State} (h : cycles n s = .next t) : cycles (n + 1) s = step t := by
  rw [cycles_add_of h, cycles_one]

/-- The level of `rst` once `k` cycles have passed is the one `k` cycles from now. -/
theorem rstLevel_passCycles (k : Nat) (s : State) : rstLevel (passCycles k s) = (pinsAt s k).rst := by
  rw [rstLevel, pinsAt_passCycles, Nat.add_zero]

/-! ### Reset -/

/-- Settles O6: `RESET` in closed form, for every state. -/
theorem resetWritesEveryRegister : Obligations.ResetWritesEveryRegister :=
  ⟨exec_reset, fun _ _ h => exec_of_performsReset h (.inl rfl)⟩

/-- Every further cycle with `rst = 1` resets a state that is reset already. -/
theorem cycles_reset_pin {n : Nat} {s : State} (h : ∀ k < n + 1, (pinsAt s k).rst = true) :
    cycles (n + 1) s = .next (passCycles (n + 1) (resetRegisters s)) := by
  induction n with
  | zero => rw [cycles_one, step_of_reset (h 0 Nat.one_pos)]
  | succ n ih =>
    have hrst : rstLevel (passCycles (n + 1) (resetRegisters s)) = true :=
      (rstLevel_passCycles _ _).trans (h (n + 1) (Nat.lt_succ_self _))
    rw [cycles_succ_of (ih fun k hk => h k (Nat.lt_succ_of_lt hk)), step_of_reset hrst]
    exact congrArg _ (passCycles_passCycles (n + 1) 1 (resetRegisters s))

/-- Settles O8: after the cycles with `rst = 1` every register has its reset value. -/
theorem resetPinHoldsTheResetState : Obligations.ResetPinHoldsTheResetState :=
  fun _ _ h => ⟨_, cycles_reset_pin h, ⟨rfl, rfl, rfl, rfl⟩, ⟨rfl, rfl⟩, rfl, rfl⟩

/-! ### The cycles of a delay phase -/

theorem delaySuccessor_of_row {now after : Phase}
    (h : (now, after) ∈ [(Phase.hold, Phase.advance), (Phase.settle, Phase.render), (Phase.frame, Phase.sample)]) :
    delaySuccessor (phaseCode now) = some after := by
  simp only [List.mem_cons, Prod.mk.injEq, List.not_mem_nil, or_false] at h
  rcases h with ⟨rfl, rfl⟩ | ⟨rfl, rfl⟩ | ⟨rfl, rfl⟩ <;> rfl

theorem exists_delaySuccessor {s : State} (h : InDelayPhase s) : ∃ after, delaySuccessor s.ph = some after :=
  Option.ne_none_iff_exists'.mp fun hn => delaySuccessor_eq_none.mp hn h

/-- A cycle without reset in a delay phase is one cycle of that delay (40_sequencer.md R122). -/
theorem step_delayPhase {s : State} {after : Phase} (hr : rstLevel s = false)
    (hd : delaySuccessor s.ph = some after) :
    step s = .next (passCycles 1 (returning .none (delayCycle after s))) := by
  unfold delaySuccessor at hd
  split_ifs at hd with hhold hsettle hframe <;> cases hd
  · rw [step_of_phase hr (hhold ▸ decodePhase_phaseCode_hold), exec_hold, mapNext_next]
  · rw [step_of_phase hr (hsettle ▸ decodePhase_phaseCode_settle), exec_settle, mapNext_next]
  · rw [step_of_phase hr (hframe ▸ decodePhase_phaseCode_frame), exec_frame, mapNext_next]

section DelayPhase

variable {s : State} {after : Phase} (hd : delaySuccessor s.ph = some after)

include hd

/-- Up to `DLY` cycles of a delay phase count `DLY` down and change no other register (40_sequencer.md R124). -/
theorem cycles_counting {k : Nat} (hk : k ≤ s.dly.toNat) (hr : NoReset s k) : ∃ d r,
    cycles k s = .next (passCycles k { s with dly := d, result := r }) ∧ d.toNat = s.dly.toNat - k := by
  induction k with
  | zero => exact ⟨s.dly, s.result, rfl, rfl⟩
  | succ k ih =>
    obtain ⟨d, r, hrun, hcount⟩ := ih (Nat.le_of_succ_le hk) (noReset_mono hr k.le_succ)
    have hne : d ≠ 0 := fun h0 => by
      have := (dly_eq_zero_iff d).mp h0
      omega
    have hrst : rstLevel (passCycles k { s with dly := d, result := r }) = false :=
      (rstLevel_passCycles _ _).trans (hr k k.lt_succ_self)
    have hsub : (d - 1).toNat = d.toNat - 1 := dly_sub_one_toNat d hne
    refine ⟨d - 1, .none, ?_, by omega⟩
    rw [cycles_succ_of hrun, step_delayPhase hrst hd, delayCycle_of_ne_zero hne]
    exact congrArg _ (passCycles_passCycles k 1 { s with dly := d - 1, result := .none })

/-- A delay phase entered with `DLY = n` takes `n + 1` cycles and leaves for its successor (40_sequencer.md R124). -/
theorem cycles_delayPhase (hr : NoReset s (s.dly.toNat + 1)) : cycles (s.dly.toNat + 1) s =
    .next (passCycles (s.dly.toNat + 1) (returning .none (goTo after (loadDelay 0 s)))) := by
  obtain ⟨d, r, hrun, hcount⟩ := cycles_counting hd le_rfl (noReset_mono hr (Nat.le_succ _))
  obtain rfl : d = 0 := (dly_eq_zero_iff d).mpr (by omega)
  have hrst : rstLevel (passCycles s.dly.toNat { s with dly := 0, result := r }) = false :=
    (rstLevel_passCycles _ _).trans (hr _ (Nat.lt_succ_self _))
  rw [cycles_succ_of hrun, step_delayPhase hrst hd, delayCycle_of_zero rfl]
  exact congrArg _ (passCycles_passCycles s.dly.toNat 1 (returning .none (goTo after (loadDelay 0 s))))

/-- The first cycle with `rst = 1` ends a delay phase (20_memory.md R75). -/
theorem cycles_delayPhase_reset {k : Nat} (hk : k ≤ s.dly.toNat) (h : FirstResetAt s k) :
    cycles (k + 1) s = .next (passCycles (k + 1) (resetRegisters s)) := by
  obtain ⟨d, r, hrun, _⟩ := cycles_counting hd hk h.1
  have hrst : rstLevel (passCycles k { s with dly := d, result := r }) = true := (rstLevel_passCycles _ _).trans h.2
  rw [cycles_succ_of hrun, step_of_reset hrst]
  exact congrArg _ (passCycles_passCycles k 1 (resetRegisters s))

theorem blockingDelay_of_delaySuccessor (n : Nat) : blockingDelay n s = delayCycles after n s := by
  rw [blockingDelay, hd]

end DelayPhase

/-- Settles O13: the counting cycles, and the one that leaves, from the laws of a delay phase. -/
theorem delayPhaseLastsOneMoreThanLoaded : Obligations.DelayPhaseLastsOneMoreThanLoaded := by
  intro s now after hrow hs hr
  have hd : delaySuccessor s.ph = some after := hs ▸ delaySuccessor_of_row hrow
  refine ⟨fun k hk => ?_, _, cycles_delayPhase hd hr, rfl, rfl, ⟨rfl, rfl, rfl, rfl⟩, rfl⟩
  obtain ⟨d, r, hrun, hcount⟩ := cycles_counting hd hk (noReset_mono hr (Nat.le_succ_of_le hk))
  exact ⟨_, hrun, rfl, hcount, ⟨rfl, rfl, rfl, rfl⟩, rfl⟩

/-! ### `DELAY` -/

theorem exec_delay {n : Nat} (hn : n < 2 ^ Config.dlyWidth) (s : State) :
    exec (.delay n) s = .next (returning .none (blockingDelay n s)) := if_pos hn

theorem exec_delay_refused {n : Nat} (hn : 2 ^ Config.dlyWidth ≤ n) (s : State) :
    exec (.delay n) s = .refused .delayOperandTooWide := if_neg (Nat.not_lt.mpr hn)

theorem exec_delay_of_firstReset {n k : Nat} {s : State} (hn : n < 2 ^ Config.dlyWidth) (hp : InDelayPhase s)
    (hk : k ≤ n) (h : FirstResetAt s k) :
    exec (.delay n) s = .next (passCycles (k + 1) (resetRegisters s)) := by
  obtain ⟨after, hd⟩ := exists_delaySuccessor hp
  rw [exec_delay hn, blockingDelay_of_delaySuccessor hd, delayCycles_reset after hk h]
  rfl

/-- Settles O15: on both sides the whole wait, or the state after the reset that ends it. -/
theorem delayIsTheCyclesOfItsPhase : Obligations.DelayIsTheCyclesOfItsPhase := by
  intro s hp
  obtain ⟨after, hd⟩ := exists_delaySuccessor hp
  refine ⟨fun hr => ?_, fun k hk h => ?_⟩
  · rw [cycles_delayPhase hd hr, exec_delay s.dly.isLt, blockingDelay_of_delaySuccessor hd,
      delayCycles_noReset after hr]
    rfl
  · rw [cycles_delayPhase_reset hd hk h, exec_delay_of_firstReset s.dly.isLt hp hk h]

/-- A `DELAY` that no reset ends is the identity where no phase delays, and else waits and leaves for the successor
(40_sequencer.md R123). -/
theorem blockingDelay_of_not_performsReset {n : Nat} {s : State} (h : ¬ PerformsReset (.delay n) s) :
    (¬ InDelayPhase s ∧ blockingDelay n s = s) ∨
    (InDelayPhase s ∧ ∃ after, delaySuccessor s.ph = some after ∧
      blockingDelay n s = passCycles (n + 1) (goTo after (loadDelay 0 s))) := by
  rcases blockingDelay_cases n s with hid | ⟨hp, _, hwait⟩ | ⟨hp, k, hk, ⟨_, hrst⟩, _⟩
  · exact .inl hid
  · exact .inr ⟨hp, hwait⟩
  · refine absurd (.inr ⟨n, rfl, hp, fun hnr => ?_⟩) h
    exact Bool.false_ne_true ((hnr k (Nat.lt_succ_of_le hk)).symm.trans hrst)

/-- A `DELAY` that no reset ends takes a delay phase to its successor. -/
theorem blockingDelay_ph {n : Nat} {s : State} {now after : Phase} (h : ¬ PerformsReset (.delay n) s)
    (hs : s.ph = phaseCode now) (hd : delaySuccessor (phaseCode now) = some after) :
    (blockingDelay n s).ph = phaseCode after := by
  rw [← hs] at hd
  rcases blockingDelay_of_not_performsReset h with ⟨hnp, _⟩ | ⟨_, after', hd', e⟩
  · exact nomatch (delaySuccessor_eq_none.mpr hnp).symm.trans hd
  · cases hd.symm.trans hd'
    rw [e]
    rfl

/-- Settles O14: the two cases of a `DELAY` that no reset ends, the state after one that a reset ends, the refusal. -/
theorem delayWaitsAndChangesNoArchitecturalState : Obligations.DelayWaitsAndChangesNoArchitecturalState := by
  refine fun n s => ⟨fun hn => ⟨fun hnr => ?_, fun hp k hk h => ?_⟩, fun hn => exec_delay_refused hn s⟩
  · obtain ⟨harch, htrace⟩ := blockingDelay_frame hnr
    refine ⟨_, exec_delay hn s, harch, htrace, rfl, fun hs => blockingDelay_ph hnr hs rfl,
      fun hs => blockingDelay_ph hnr hs rfl, fun hs => blockingDelay_ph hnr hs rfl, fun hp => ?_, fun hnp => ?_⟩
    · rcases blockingDelay_of_not_performsReset hnr with ⟨hnp, _⟩ | ⟨_, _, _, e⟩
      · exact absurd hp hnp
      · rw [e]
        exact ⟨rfl, rfl, rfl⟩
    · rcases blockingDelay_of_not_performsReset hnr with ⟨_, e⟩ | ⟨hp, _⟩
      · rw [e]
        exact ⟨⟨rfl, rfl⟩, rfl, rfl⟩
      · exact absurd hp hnp
  · exact ⟨_, exec_reset s, exec_delay_of_firstReset hn hp hk h⟩

end Sys2Proof.Machine
end

section
/-! SUPPORT. Encoding against decoding (spec/30_encoding.md), the frame of the operations at the input ports, repeated
mode advances (spec/42_mode_counter.md) and what a frame depends on (spec/44_dispatcher.md). -/

namespace Sys2Proof.Machine

/-! ### Selectors -/

/-- Settles O1: the two tables, read off row by row. -/
theorem selectorTablesNameTheirOperations : Obligations.SelectorTablesNameTheirOperations :=
  ⟨rfl, rfl, rfl, rfl, rfl, rfl, rfl, rfl, rfl, rfl, rfl, rfl, rfl, rfl, rfl, rfl⟩

theorem decode_of_encode {i : Instr} {sp : Space} {w : BitVec 3} (h : encode i = some (sp, w)) :
    decode sp w = .ok i := by
  cases i with
  | readBtn | writeAll | delay | reset | iter => exact nomatch h
  | _ => cases h; rfl

theorem encode_of_decode {i : Instr} {sp : Space} {w : BitVec 3} (h : decode sp w = .ok i) :
    encode i = some (sp, w) := by
  cases sp with
  | phase => exact phase_of_decode h
  | mode3 => cases h; exact encode_decodeMode w

/-- The operations of format `NONE` are those without a selector (30_encoding.md R91). -/
theorem encode_eq_none_iff {i : Instr} : encode i = none ↔
    i = .readBtn ∨ (∃ v, i = .writeAll v) ∨ (∃ n, i = .delay n) ∨ i = .reset ∨ ∃ b, i = .iter b := by
  constructor
  · intro h
    cases i with
    | readBtn => exact .inl rfl
    | writeAll v => exact .inr (.inl ⟨v, rfl⟩)
    | delay n => exact .inr (.inr (.inl ⟨n, rfl⟩))
    | reset => exact .inr (.inr (.inr (.inl rfl)))
    | iter b => exact .inr (.inr (.inr (.inr ⟨b, rfl⟩)))
    | _ => exact nomatch h
  · rintro (rfl | ⟨v, rfl⟩ | ⟨n, rfl⟩ | rfl | ⟨b, rfl⟩) <;> rfl

/-- Settles O2: a selector of an operation decodes to it, and what decodes to it is its selector. -/
theorem encodingAndDecodingAgree : Obligations.EncodingAndDecodingAgree :=
  ⟨fun _ _ _ => ⟨decode_of_encode, encode_of_decode⟩, fun _ => encode_eq_none_iff⟩

/-! ### The input ports -/

theorem exec_sample_sameEnv {s t : State} (h : exec .sample s = .next t) : SameEnv s t := by
  cases hb : rising s.prev (btnLevel s) with
  | true => cases (exec_sample_of_press hb).symm.trans h; exact ⟨rfl, rfl⟩
  | false => cases (exec_sample_of_no_press hb).symm.trans h; exact ⟨rfl, rfl⟩

theorem delayCycle_sameEnv (after : Phase) (s : State) : SameEnv s (returning .none (delayCycle after s)) := by
  obtain ⟨_, _, henv⟩ := delayCycle_frame after s
  exact henv

theorem exec_step_sameEnv {m : BitVec 3} {s t : State} (h : exec (decodeMode m) s = .next t) : SameEnv s t := by
  obtain ⟨_, _, _, rfl⟩ := exec_step_next h
  exact ⟨rfl, rfl⟩

/-- Settles O23: by cases on the operation, none but `DELAY` writes the model's port fields. -/
theorem operationsLeaveTheInputPortsAlone : Obligations.OperationsLeaveTheInputPortsAlone := by
  intro i s t h hdelay
  cases i with
  | sample => exact exec_sample_sameEnv h
  | hold => cases h; exact delayCycle_sameEnv .advance s
  | advance => cases h; exact ⟨rfl, rfl⟩
  | settle => cases h; exact delayCycle_sameEnv .render s
  | render => obtain ⟨_, _, _, rfl⟩ := exec_render_next h; exact ⟨rfl, rfl⟩
  | frame => cases h; exact delayCycle_sameEnv .sample s
  | stepCw => exact exec_step_sameEnv (m := 0) h
  | stepCcw => exact exec_step_sameEnv (m := 1) h
  | stepBlink => exact exec_step_sameEnv (m := 2) h
  | stepPinseq => exact exec_step_sameEnv (m := 3) h
  | stepBounce => exact exec_step_sameEnv (m := 4) h
  | stepBincnt => exact exec_step_sameEnv (m := 5) h
  | stepLcg => exact exec_step_sameEnv (m := 6) h
  | stepBreathe => exact exec_step_sameEnv (m := 7) h
  | readBtn => cases h; exact ⟨rfl, rfl⟩
  | writeAll v => cases h; exact ⟨rfl, rfl⟩
  | delay n => exact absurd rfl (hdelay n)
  | reset => cases h; exact ⟨rfl, rfl⟩
  | iter b => obtain ⟨_, _, _, rfl⟩ := exec_iter_next h; exact ⟨rfl, rfl⟩

/-! ### Repeated mode advances -/

theorem execTimes_succ_of {i : Instr} {s t : State} (h : exec i s = .next t) (n : Nat) :
    execTimes i (n + 1) s = execTimes i n t := by
  rw [execTimes, h, andThen_next]

theorem execTimes_advance (k : Nat) (s : State) : ∃ t, execTimes .advance k s = .next t ∧
    t.mode = s.mode + BitVec.ofNat 3 k ∧ t.g = s.g ∧ t.prev = s.prev ∧
    t.trace = s.trace ++ List.replicate k 0x00 := by
  induction k generalizing s with
  | zero => exact ⟨s, rfl, (add_zero s.mode).symm, rfl, rfl, (List.append_nil _).symm⟩
  | succ k ih =>
    rw [execTimes_succ_of (exec_advance s)]
    obtain ⟨t, ht, hmode, hg, hprev, htrace⟩ := ih _
    refine ⟨t, ht, ?_, hg, hprev, ?_⟩
    · rw [hmode, Nat.add_comm k 1, BitVec.ofNat_add, ← add_assoc]
      rfl
    · rw [htrace, List.append_assoc, List.singleton_append, ← List.replicate_succ]

theorem bitVec3_ofNat_eq_zero_iff {k : Nat} : BitVec.ofNat 3 k = 0 ↔ 8 ∣ k := by
  rw [← BitVec.toNat_inj, BitVec.toNat_ofNat, Nat.dvd_iff_mod_eq_zero]
  rfl

/-- Settles O17: `k` advances add `k` to the 3-bit mode, which is no change exactly where 8 divides `k`. -/
theorem modeReturnsAfterMultiplesOfEightAdvances : Obligations.ModeReturnsAfterMultiplesOfEightAdvances := by
  intro k s
  obtain ⟨t, ht, hmode, hg, hprev, htrace⟩ := execTimes_advance k s
  exact ⟨t, ht, by rw [hmode, add_eq_left, bitVec3_ofNat_eq_zero_iff], hg, hprev, htrace⟩

/-! ### What a frame depends on -/

/-- Settles O25: the generator of the mode yields from the first state and, as it reads its own entry only, does the
same from the second. -/
theorem frameDependsOnlyOnTheSelectedEntry : Obligations.FrameDependsOnlyOnTheSelectedEntry := by
  intro s s' hs _ hmode hentry
  obtain ⟨v, g, hg, _⟩ := generatorOf_completes hs s.mode
  obtain ⟨g', hg', hentry'⟩ := generatorOf_of_same_entry hg hentry
  exact ⟨_, _, exec_render_of hg, exec_render_of (hmode ▸ hg'), rfl, hentry', fun _ => generatorOf_keeps_others hg'⟩

end Sys2Proof.Machine
end

section
/-! SUPPORT. The generators (spec/45_generators.md) each as a function of its own entry of the bank: the step in closed
form, and what many consecutive calls yield and leave. -/

namespace Sys2Proof.Machine

open Function

/-! ### A step as a function of its entry -/

/-- The step `i` seen as a function of its generator's own entry of the bank, which has the type `α` (45_generators.md
R200). -/
structure EntryStep (i : Instr) (α : Type) where
  /-- The entry of a bank. -/
  get : Bank → α
  /-- The bank with that entry replaced. -/
  put : α → Bank → Bank
  /-- The entry after a call. -/
  next : α → α
  /-- The mask a call yields from an entry. -/
  mask : α → Mask
  /-- The entries of the state space, on which the step has a meaning. -/
  inside : α → Bool := fun _ => true
  get_put : ∀ a g, get (put a g) = a := by intros; rfl
  put_put : ∀ a b g, put a (put b g) = put a g := by intros; rfl
  put_get : ∀ g, put (get g) g = g := by intros; rfl
  inside_next : ∀ a, inside a = true → inside (next a) = true := by intros; rfl
  exec_eq : ∀ s : State, inside (get s.g) = true →
    exec i s = .next { s with g := put (next (get s.g)) s.g, result := .mask (mask (get s.g)) }

namespace EntryStep

variable {i : Instr} {α : Type} (E : EntryStep i α) (n : Nat) (s : State)

/-- The state after one call. -/
def after (s : State) : State := { s with g := E.put (E.next (E.get s.g)) s.g, result := .mask (E.mask (E.get s.g)) }

theorem get_after : E.get (E.after s).g = E.next (E.get s.g) := E.get_put _ _

theorem inside_after {s : State} (h : E.inside (E.get s.g) = true) : E.inside (E.get (E.after s).g) = true :=
  (congrArg E.inside (E.get_after s)).trans (E.inside_next _ h)

/-- Consecutive calls iterate the entry and leave the rest of the bank. -/
theorem execTimes_eq (h : E.inside (E.get s.g) = true) :
    ∃ t, execTimes i n s = .next t ∧ t.g = E.put (E.next^[n] (E.get s.g)) s.g := by
  induction n generalizing s with
  | zero => exact ⟨s, rfl, (E.put_get s.g).symm⟩
  | succ n ih =>
    obtain ⟨t, ht, hg⟩ := ih (E.after s) (E.inside_after h)
    refine ⟨t, (execTimes_succ_of (E.exec_eq s h) n).trans ht, ?_⟩
    rw [hg, E.get_after, iterate_succ_apply]
    exact E.put_put _ _ _

/-- Calls that bring the entry back restore the bank. -/
theorem execTimes_restores (h : E.inside (E.get s.g) = true) (hn : E.next^[n] (E.get s.g) = E.get s.g) :
    ∃ t, execTimes i n s = .next t ∧ t.g = s.g := by
  obtain ⟨t, ht, hg⟩ := E.execTimes_eq n s h
  exact ⟨t, ht, by rw [hg, hn, E.put_get]⟩

/-- Consecutive calls yield the masks of the iterates of the entry: `yields_eq_map_iterate` for a step that has a
meaning on part of its entries. -/
theorem yields_eq (h : E.inside (E.get s.g) = true) :
    yields i n s = (List.range n).map fun k => E.mask (E.next^[k] (E.get s.g)) := by
  induction n generalizing s with
  | zero => rfl
  | succ n ih =>
    have hsplit : yields i (n + 1) s = E.mask (E.get s.g) :: yields i n (E.after s) := by
      rw [yields, E.exec_eq s h]
      rfl
    rw [hsplit, ih _ (E.inside_after h), E.get_after, List.range_succ_eq_map, List.map_cons, List.map_map]
    rfl

/-- The masks of consecutive calls, where the iterates of the entry are known. -/
theorem yields_eq_of_iterate (h : E.inside (E.get s.g) = true) {entry : Nat → α}
    (hentry : ∀ k, E.next^[k] (E.get s.g) = entry k) :
    yields i n s = (List.range n).map fun k => E.mask (entry k) := by
  simp only [E.yields_eq n s h, hentry]

end EntryStep

def cwStep : EntryStep .stepCw (BitVec 3) where
  get g := g.cwi
  put k g := { g with cwi := k }
  next k := k + 1
  mask := compassMask Config.compass
  exec_eq _ _ := exec_step_of (m := 0) rfl

def ccwStep : EntryStep .stepCcw (BitVec 3) where
  get g := g.cci
  put k g := { g with cci := k }
  next k := k - 1
  mask := compassMask Config.compass
  exec_eq _ _ := exec_step_of (m := 1) rfl

def blinkStep : EntryStep .stepBlink Bool where
  get g := g.blk
  put b g := { g with blk := b }
  next b := !b
  mask b := blinkMask (!b)
  exec_eq _ _ := exec_step_of (m := 2) rfl

def pinseqStep : EntryStep .stepPinseq (BitVec 3) where
  get g := g.psi
  put p g := { g with psi := p }
  next p := p + 1
  mask := oneHot
  exec_eq _ _ := exec_step_of (m := 3) rfl

/-- The entry of the bounce scan: the position and the direction. -/
def bounceStep : EntryStep .stepBounce (BitVec 3 × Dir) where
  get g := (g.bpos, g.bdir)
  put a g := { g with bpos := a.1, bdir := a.2 }
  next a := (bounceNext a.1 a.2, bounceDir (bounceNext a.1 a.2) a.2)
  mask a := oneHot (bounceNext a.1 a.2)
  inside a := bounceInSpace a.1 a.2
  inside_next := by
    rintro ⟨p, d⟩
    cases d <;> revert p <;> decide
  exec_eq _ h := exec_step_of (m := 4) (if_pos h)

def bincntStep : EntryStep .stepBincnt (BitVec 8) where
  get g := g.bcnt
  put n g := { g with bcnt := n }
  next n := n + 1
  mask n := n + 1
  exec_eq _ _ := exec_step_of (m := 5) rfl

/-- The entry of the breathing generator: the count and the direction. -/
def breatheStep : EntryStep .stepBreathe (BitVec 4 × Dir) where
  get g := (g.brc, g.brd)
  put a g := { g with brc := a.1, brd := a.2 }
  next a := (breatheNext a.1 a.2, breatheDir (breatheNext a.1 a.2) a.2)
  mask a := onesMask (breatheNext a.1 a.2)
  inside a := breatheInSpace a.1 a.2
  inside_next := by
    rintro ⟨c, d⟩
    cases d <;> revert c <;> decide
  exec_eq _ h := exec_step_of (m := 7) (if_pos h)

/-! ### The masks -/

/-- `1 << p` has the line at position `p` on and no other (00_scope.md R14). -/
theorem oneHot_getLsb (k : BitVec 3) (p : Fin 8) : (oneHot k).getLsb p = decide (p = k.toFin) := by
  revert k p
  decide

theorem compassMask_getLsb (compass : Fin 8 → Fin 8) (k : BitVec 3) (p : Fin 8) :
    (compassMask compass k).getLsb p = decide (p = compass k.toFin) :=
  oneHot_getLsb _ p

/-- `ones(n)` has the lines below `n` on (00_scope.md R14). -/
theorem onesMask_getLsb {c : BitVec 4} (hc : c ≤ 8) (p : Fin 8) : (onesMask c).getLsb p = decide (p.val < c.toNat) := by
  revert c p
  decide

/-! ### The steps one at a time -/

/-- Settles O26: the closed form of each step; the mask is the one line of the old index. -/
theorem rotationsLightTheStoredIndexThenMove : Obligations.RotationsLightTheStoredIndexThenMove := by
  refine fun s => ⟨⟨_, _, cwStep.exec_eq s rfl, BitVec.toNat_add s.g.cwi 1, compassMask_getLsb _ _⟩,
    ⟨_, _, ccwStep.exec_eq s rfl, ?_, compassMask_getLsb _ _⟩,
    ⟨_, _, pinseqStep.exec_eq s rfl, BitVec.toNat_add s.g.psi 1, oneHot_getLsb _⟩⟩
  exact (BitVec.toNat_sub s.g.cci 1).trans (congrArg (· % 8) (Nat.add_comm 7 s.g.cci.toNat))

/-- Settles O27: the step from either flag, and the negation of a negation. -/
theorem blinkInvertsTheFlagThenShowsIt : Obligations.BlinkInvertsTheFlagThenShowsIt := by
  intro s
  have hstep := blinkStep.exec_eq s rfl
  refine ⟨fun hb => ?_, fun hb => ?_, blinkStep.execTimes_restores 2 s rfl (Bool.not_not _)⟩
  · simpa [blinkStep, hb, blinkMask] using hstep
  · simpa [blinkStep, hb, blinkMask] using hstep

/-- Settles O29: the closed form of the step. -/
theorem binaryCounterShowsItsNewValue : Obligations.BinaryCounterShowsItsNewValue :=
  fun s => ⟨s.g.bcnt + 1, BitVec.toNat_add s.g.bcnt 1, bincntStep.exec_eq s rfl⟩

/-- A step whose generator refuses the bank is refused. -/
theorem exec_step_refused {m : BitVec 3} {s : State} {r : Refusal} (h : generatorOf m s.g = .error r) :
    exec (decodeMode m) s = .refused r := by
  rw [exec_decodeMode, runStep, h]

theorem bounceDir_up (p : BitVec 3) : bounceDir p .up = if p = 7 then .down else .up := by
  unfold bounceDir
  split_ifs <;> rfl

theorem bounceDir_down {p : BitVec 3} (h : p ≠ 7) : bounceDir p .down = if p = 0 then .up else .down :=
  if_neg h

theorem exec_stepBounce_refused {s : State} (h : bounceInSpace s.g.bpos s.g.bdir = false) :
    exec .stepBounce s = .refused .bounceOutsideStateSpace :=
  exec_step_refused (m := 4) (if_neg (Bool.eq_false_iff.mp h))

/-- Settles O28: the closed form of the step in each direction; the two other states fail its guard. -/
theorem bounceMovesYieldsThenFlips : Obligations.BounceMovesYieldsThenFlips := by
  refine fun s => ⟨fun hd hp => ⟨s.g.bpos + 1, ?_, ?_⟩, fun hd hp => ⟨s.g.bpos - 1, ?_, ?_⟩, fun h => ?_⟩
  · bv_omega
  · have hin : bounceInSpace s.g.bpos s.g.bdir = true := by rw [hd]; exact decide_eq_true hp
    simpa [bounceStep, hd, bounceNext, bounceDir_up, oneHot] using bounceStep.exec_eq s hin
  · bv_omega
  · have hin : bounceInSpace s.g.bpos s.g.bdir = true := by rw [hd]; exact decide_eq_true hp
    have hne : s.g.bpos - 1#3 ≠ 7 := by bv_omega
    simpa [bounceStep, hd, bounceNext, bounceDir_down hne, oneHot] using bounceStep.exec_eq s hin
  · refine exec_stepBounce_refused ?_
    rcases h with ⟨hd, hp⟩ | ⟨hd, hp⟩ <;> rw [hd, hp] <;> rfl

theorem exec_stepBreathe_refused {s : State} (h : breatheInSpace s.g.brc s.g.brd = false) :
    exec .stepBreathe s = .refused .breatheOutsideStateSpace :=
  exec_step_refused (m := 7) (if_neg (Bool.eq_false_iff.mp h))

theorem breatheDir_up {c : BitVec 4} (hc : c ≤ 8) : breatheDir c .up = if c = 8 then .down else .up := by
  refine if_congr ⟨fun h => ?_, fun h => h ▸ BitVec.le_refl _⟩ rfl rfl
  bv_omega

theorem breatheDir_down (c : BitVec 4) : breatheDir c .down = if c = 0 then .up else .down := by
  refine if_congr ⟨fun h => ?_, fun h => h ▸ BitVec.le_refl _⟩ rfl rfl
  bv_omega

/-- Settles O31: the closed form of the step in each direction; every other state fails its guard. -/
theorem breatheFillsToTheNewCount : Obligations.BreatheFillsToTheNewCount := by
  refine fun s => ⟨fun hd hc => ?_, fun hd hc hc' => ?_, fun h => ?_⟩
  · have hin : breatheInSpace s.g.brc s.g.brd = true := by rw [hd]; exact decide_eq_true hc
    have hle : s.g.brc + 1#4 ≤ 8 := by bv_omega
    refine ⟨s.g.brc + 1, onesMask (s.g.brc + 1), by bv_omega, onesMask_getLsb hle, ?_⟩
    simpa [breatheStep, hd, breatheNext, breatheDir_up hle] using breatheStep.exec_eq s hin
  · have hin : breatheInSpace s.g.brc s.g.brd = true := by
      rw [hd, breatheInSpace, Bool.and_eq_true_iff]
      exact ⟨decide_eq_true hc, decide_eq_true hc'⟩
    have hle : s.g.brc - 1#4 ≤ 8 := by bv_omega
    refine ⟨s.g.brc - 1, onesMask (s.g.brc - 1), by bv_omega, onesMask_getLsb hle, ?_⟩
    simpa [breatheStep, hd, breatheNext, breatheDir_down] using breatheStep.exec_eq s hin
  · refine exec_stepBreathe_refused ?_
    rcases h with hc | ⟨hd, hc⟩ | ⟨hd, hc⟩
    · cases s.g.brd
      · exact decide_eq_false (by bv_omega)
      · rw [breatheInSpace, decide_eq_false (p := s.g.brc ≤ 8) (by bv_omega), Bool.and_false]
    · rw [hd, hc]; rfl
    · rw [hd, hc]; rfl

end Sys2Proof.Machine
end

section
/-! SUPPORT. The generators over whole periods (spec/45_generators.md): an index that moves by one is its start plus the
number of calls; a sweep comes back after its period and stands at each end once. -/

namespace Sys2Proof.Machine

open Function

/-! ### Counters that move by one -/

theorem iterate_add_one {w : Nat} (n : Nat) (x : BitVec w) : (fun y => y + 1)^[n] x = x + BitVec.ofNat w n := by
  rw [add_right_iterate, nsmul_one, BitVec.natCast_eq_ofNat]

theorem iterate_sub_one {w : Nat} (n : Nat) (x : BitVec w) : (fun y => y - 1)^[n] x = x - BitVec.ofNat w n := by
  simp only [sub_eq_add_neg, add_right_iterate, smul_neg, nsmul_one, BitVec.natCast_eq_ofNat]

/-! ### The rotations and the pin-order pattern -/

theorem yields_stepCw (n : Nat) :
    yields .stepCw n State.reset = (List.range n).map fun k => 1#8 <<< (Config.compass (Fin.ofNat 8 k)).val :=
  cwStep.yields_eq_of_iterate n State.reset rfl fun k => (iterate_add_one k 0).trans (zero_add _)

theorem yields_stepCcw (n : Nat) :
    yields .stepCcw n State.reset = (List.range n).map fun k => 1#8 <<< (Config.compass (-(Fin.ofNat 8 k))).val := by
  rw [ccwStep.yields_eq_of_iterate n State.reset rfl fun k => (iterate_sub_one k 0).trans (zero_sub _)]
  refine List.map_congr_left fun k _ => ?_
  change 1#8 <<< (Config.compass (-BitVec.ofNat 3 k).toFin).val = _
  rw [BitVec.toFin_neg]
  rfl

theorem yields_stepPinseq (n : Nat) :
    yields .stepPinseq n State.reset = (List.range n).map fun k => 1#8 <<< (Fin.ofNat 8 k).val :=
  pinseqStep.yields_eq_of_iterate n State.reset rfl fun k => (iterate_add_one k 0).trans (zero_add _)

/-- Different positions have different masks. -/
theorem line_injective : Injective fun p : Fin 8 => 1#8 <<< p.val := by
  decide

/-- Eight calls of `STEP.CW` go through all compass steps, and the map to positions is a bijection. -/
theorem yields_stepCw_eight_count (p : Fin 8) : (yields .stepCw 8 State.reset).count (1#8 <<< p.val) = 1 := by
  obtain ⟨k, rfl⟩ := Config.compass_bijective.surjective p
  have hmasks : yields .stepCw 8 State.reset = (List.finRange 8).map fun k => 1#8 <<< (Config.compass k).val := by
    rw [yields_stepCw]
    rfl
  rw [hmasks]
  refine (List.count_map_of_injective _ _ (line_injective.comp Config.compass_bijective.injective) k).trans ?_
  exact List.count_eq_one_of_mem (List.nodup_finRange 8) (List.mem_finRange k)

/-- Settles O32: both indices start at N, one moves up and the other down. -/
theorem rotationsVisitTheCompassInOppositeOrders : Obligations.RotationsVisitTheCompassInOppositeOrders :=
  fun n => ⟨yields_stepCw n, yields_stepCcw n, yields_stepCw_eight_count⟩

/-- The two patterns differ in every call whose compass step the map moves. -/
theorem stepCw_ne_stepPinseq {k : Fin 8} (h : Config.compass k ≠ k) :
    (yields .stepCw 8 State.reset)[k.val]? ≠ (yields .stepPinseq 8 State.reset)[k.val]? := by
  rw [yields_stepCw, yields_stepPinseq, List.getElem?_map, List.getElem?_map, List.getElem?_range k.isLt]
  intro he
  have hline : 1#8 <<< (Config.compass (Fin.ofNat 8 k)).val = 1#8 <<< (Fin.ofNat 8 k).val := Option.some.inj he
  rw [Fin.ofNat_val_eq_self] at hline
  exact h (line_injective hline)

/-- Settles O33: the map is not the identity, so it moves some step `k`, and being injective it moves the image of `k`
too. -/
theorem pinOrderDiffersFromClockwiseInTwoPlaces : Obligations.PinOrderDiffersFromClockwiseInTwoPlaces := by
  refine ⟨by decide, ?_⟩
  obtain ⟨k, hk⟩ : ∃ k, Config.compass k ≠ k := not_forall.mp fun h => Config.compass_ne_id (funext h)
  have hk' : Config.compass (Config.compass k) ≠ Config.compass k := Config.compass_bijective.injective.ne hk
  exact ⟨k, Config.compass k, hk.symm, stepCw_ne_stepPinseq hk, stepCw_ne_stepPinseq hk'⟩

/-! ### The binary counter -/

/-- Settles O35: the counter after `k` calls is its start plus `k`, and 256 is 0 in eight bits. -/
theorem binaryCounterYieldsTheCallNumber : Obligations.BinaryCounterYieldsTheCallNumber := by
  refine ⟨fun n => ?_, fun s => bincntStep.execTimes_restores 256 s rfl ?_⟩
  · rw [bincntStep.yields_eq_of_iterate n State.reset rfl fun k => (iterate_add_one k 0).trans (zero_add _)]
    exact List.map_congr_left fun k _ => (BitVec.ofNat_add k 1).symm
  · exact (iterate_add_one 256 s.g.bcnt).trans (add_zero _)

/-! ### The two sweeps -/

theorem bounce_iterate_14 (a : BitVec 3 × Dir) (h : bounceStep.inside a = true) : bounceStep.next^[14] a = a := by
  obtain ⟨p, d⟩ := a
  cases d <;> revert p <;> decide

/-- In a period of the bounce scan each end is lit once and each other position twice. -/
theorem bounce_period_count (a : BitVec 3 × Dir) (h : bounceStep.inside a = true) (p : Fin 8) :
    ((List.range 14).map fun k => bounceStep.mask (bounceStep.next^[k] a)).count (1#8 <<< p.val) =
      if p = 0 ∨ p = 7 then 1 else 2 := by
  obtain ⟨q, d⟩ := a
  cases d <;> revert q p <;> decide

/-- Settles O34: the entry of the scan has 14 values in the state space, and the scan goes through all of them. -/
theorem bounceVisitsEndpointsOncePerFourteenCalls : Obligations.BounceVisitsEndpointsOncePerFourteenCalls := by
  refine ⟨by decide, fun s h => ⟨bounceStep.execTimes_restores 14 s h (bounce_iterate_14 _ h), fun p => ?_⟩⟩
  rw [bounceStep.yields_eq 14 s h]
  exact bounce_period_count (s.g.bpos, s.g.bdir) h p

theorem breathe_iterate_16 (a : BitVec 4 × Dir) (h : breatheStep.inside a = true) : breatheStep.next^[16] a = a := by
  obtain ⟨c, d⟩ := a
  cases d <;> revert c <;> decide

/-- In a period of the breathing generator the full and the empty mask stand once and each other count twice. -/
theorem breathe_period_count (a : BitVec 4 × Dir) (h : breatheStep.inside a = true) (c : Fin 9) :
    ((List.range 16).map fun k => breatheStep.mask (breatheStep.next^[k] a)).count (BitVec.ofNat 8 (2 ^ c.val - 1)) =
      if c = 0 ∨ c = 8 then 1 else 2 := by
  obtain ⟨b, d⟩ := a
  cases d <;> revert b c <;> decide

/-- Settles O36: the entry of the generator has 16 values in the state space, and the sweep goes through all of them. -/
theorem breatheReachesItsEndsOncePerSixteenCalls : Obligations.BreatheReachesItsEndsOncePerSixteenCalls := by
  refine ⟨by decide, fun s h => ⟨breatheStep.execTimes_restores 16 s h (breathe_iterate_16 _ h), fun c => ?_⟩⟩
  rw [breatheStep.yields_eq 16 s h]
  exact breathe_period_count (s.g.brc, s.g.brd) h c

end Sys2Proof.Machine
end

section
/-! SUPPORT. Iterations of the loop (spec/40_sequencer.md section 3): the registers at the points where an iteration
changes phase, the agreement with `ITER`, and runs of `ITER` over a stimulus string. -/

namespace Sys2Proof.Machine

/-! ### `ITER` -/

/-- Settles O37: on the state space the generator of the mode reached yields, so its step and `ITER` have their closed
forms. -/
theorem iterationFollowsItsPseudocode : Obligations.IterationFollowsItsPseudocode := by
  rintro b s hs press m rfl rfl
  obtain ⟨v, g, hg, _⟩ := generatorOf_completes hs (if rising s.prev b then s.mode + 1 else s.mode)
  exact ⟨_, v, exec_step_of hg, rfl, exec_iter_of hg⟩

/-- What an iteration records of the level it samples (40_sequencer.md R125). -/
theorem exec_iter_prev_mode {b : Level} {s t : State} (h : exec (.iter b) s = .next t) :
    t.prev = b ∧ t.mode.toNat = (s.mode.toNat + (rising s.prev b).toNat) % 8 := by
  obtain ⟨v, g, _, rfl⟩ := exec_iter_next h
  refine ⟨rfl, ?_⟩
  cases hb : rising s.prev b with
  | true => exact BitVec.toNat_add s.mode 1
  | false => exact (Nat.mod_eq_of_lt s.mode.isLt).symm

/-- Settles O41: each `ITER` completes in the state space and adds its rising edge; the last level read stays in
`PREV`. -/
theorem pressesAdvanceTheModeOncePerRisingEdge : Obligations.PressesAdvanceTheModeOncePerRisingEdge := by
  intro bs
  induction bs with
  | nil => exact fun s _ => ⟨s, rfl, (Nat.mod_eq_of_lt s.mode.isLt).symm, rfl⟩
  | cons b bs ih =>
    intro s hs
    obtain ⟨u, hu, huspace⟩ := completesInSpace_iter hs b
    obtain ⟨hprev, hmode⟩ := exec_iter_prev_mode hu
    obtain ⟨t, ht, htmode, htprev⟩ := ih u huspace
    refine ⟨t, ?_, ?_, ?_⟩
    · rw [iterAll, hu, andThen_next, ht]
    · rw [htmode, hmode, hprev, risingEdges, Nat.mod_add_mod, Nat.add_assoc]
    · rw [htprev, hprev, List.getLastD_cons]

/-! ### Reaching a state in a number of cycles -/

/-- `m` cycles lead from `s` to the registers of `u`; `u` itself still has the port levels of `s` before it. -/
def Reaches (m : Nat) (s u : State) : Prop := SameEnv s u ∧ cycles m s = .next (passCycles m u)

namespace Reaches

variable {m : Nat} {s u : State}

theorem refl (s : State) : Reaches 0 s s := ⟨⟨rfl, rfl⟩, rfl⟩

theorem noReset (h : Reaches m s u) {n : Nat} (hr : NoReset s (m + n)) : NoReset (passCycles m u) n := by
  obtain ⟨⟨hstim, htick⟩, _⟩ := h
  exact noReset_passCycles hr ⟨congrArg (List.drop m) hstim, congrArg (· + m) htick⟩

/-- One cycle more, which performs the operation of the phase. -/
theorem operation (h : Reaches m s u) {i : Instr} {v : State} (hr : NoReset s (m + 1)) (hp : decodePhase u.ph = .ok i)
    (hi : exec i (passCycles m u) = .next (passCycles m v)) (he : SameEnv s v) : Reaches (m + 1) s v := by
  refine ⟨he, ?_⟩
  rw [cycles_succ_of h.2, step_of_phase (noReset_head (h.noReset hr)) hp, hi, mapNext_next, passCycles_passCycles]

section Delay

variable (h : Reaches m s u) {after : Phase} (hd : delaySuccessor u.ph = some after)

include h hd

/-- All the cycles of a delay phase. -/
theorem delay {n : Nat} (hn : m + (u.dly.toNat + 1) = n) (hr : NoReset s n) :
    Reaches n s (returning .none (goTo after (loadDelay 0 u))) := by
  subst hn
  refine ⟨h.1, ?_⟩
  rw [cycles_add_of h.2]
  refine (cycles_delayPhase (s := passCycles m u) hd (h.noReset hr)).trans (congrArg _ ?_)
  exact passCycles_passCycles m _ (returning .none (goTo after (loadDelay 0 u)))

/-- Any number of the cycles of a delay phase: the port shows the same mask throughout. -/
theorem delay_out {n : Nat} (hmn : m ≤ n) (hn : n ≤ m + (u.dly.toNat + 1)) (hr : NoReset s n) :
    ∃ t, cycles n s = .next t ∧ outPort t = u.out := by
  obtain ⟨k, rfl⟩ := Nat.exists_eq_add_of_le hmn
  rcases Nat.le_or_eq_of_le_succ (Nat.le_of_add_le_add_left hn) with hk | rfl
  · obtain ⟨d, r, hrun, _⟩ := cycles_counting (s := passCycles m u) hd hk (h.noReset hr)
    exact ⟨_, (cycles_add_of h.2 k).trans hrun, rfl⟩
  · exact ⟨_, (h.delay hd rfl hr).2, rfl⟩

end Delay

end Reaches

/-! ### The course of an iteration -/

/-- The number of cycles from `SAMPLE` to `RENDER`, where `SAMPLE` reads `b` (40_sequencer.md R122, R124). -/
def leadIn (s : State) (b : Level) : Nat :=
  if rising s.prev b then Config.holdTicks.toNat + Config.settleTicks.toNat + 4 else 1

/-- After its `RENDER` an iteration has the delay of the frame before it, in the mode that `ITER` reaches. -/
theorem iterLength_eq {s u : State} {b : Level} (hu : exec (.iter b) s = .next u) :
    leadIn s b + 1 + ((Config.frameTicks u.mode).toNat + 1) = iterLength s b := by
  obtain ⟨_, _, _, rfl⟩ := exec_iter_next hu
  unfold leadIn iterLength
  dsimp only
  split_ifs <;> omega

section Iteration

variable {s : State} (hph : s.ph = phaseCode .sample)

include hph

section Press

variable (hpress : rising s.prev (btnLevel s) = true)

include hpress

theorem reaches_hold (hr : NoReset s 1) :
    Reaches 1 s { s with prev := true, ph := phaseCode .hold, dly := Config.holdTicks, result := .bit true } :=
  (Reaches.refl s).operation hr (hph ▸ decodePhase_phaseCode_sample) (exec_sample_of_press hpress) ⟨rfl, rfl⟩

theorem reaches_advance (hr : NoReset s (Config.holdTicks.toNat + 2)) :
    Reaches (Config.holdTicks.toNat + 2) s
      { s with prev := true, ph := phaseCode .advance, dly := 0, result := .none } :=
  (reaches_hold hph hpress (noReset_mono hr (by omega))).delay (after := .advance) rfl (by dsimp only; omega) hr

theorem reaches_settle (hr : NoReset s (Config.holdTicks.toNat + 3)) :
    Reaches (Config.holdTicks.toNat + 3) s
      { s with prev := true, mode := s.mode + 1, out := 0x00, trace := s.trace ++ [0x00], ph := phaseCode .settle,
               dly := Config.settleTicks, result := .none } :=
  (reaches_advance hph hpress (noReset_mono hr (by omega))).operation hr rfl (exec_advance _) ⟨rfl, rfl⟩

theorem reaches_render_of_press (hr : NoReset s (Config.holdTicks.toNat + Config.settleTicks.toNat + 4)) :
    Reaches (Config.holdTicks.toNat + Config.settleTicks.toNat + 4) s
      { s with prev := true, mode := s.mode + 1, out := 0x00, trace := s.trace ++ [0x00], ph := phaseCode .render,
               dly := 0, result := .none } :=
  (reaches_settle hph hpress (noReset_mono hr (by omega))).delay (after := .render) rfl (by dsimp only; omega) hr

end Press

theorem reaches_render_of_no_press (hpress : rising s.prev (btnLevel s) = false) (hr : NoReset s 1) :
    Reaches 1 s { s with prev := btnLevel s, ph := phaseCode .render, result := .bit false } :=
  (Reaches.refl s).operation hr (hph ▸ decodePhase_phaseCode_sample) (exec_sample_of_no_press hpress) ⟨rfl, rfl⟩

section Frame

variable {u : State} (hu : exec (.iter (btnLevel s)) s = .next u)

include hu

/-- With the cycle of `RENDER` the cycles have done to the architectural state and the trace what `ITER` does. -/
theorem reaches_frame (hr : NoReset s (leadIn s (btnLevel s) + 1)) :
    Reaches (leadIn s (btnLevel s) + 1) s (goTo .frame (loadDelay (Config.frameTicks u.mode) u)) := by
  obtain ⟨v, g, hg, rfl⟩ := exec_iter_next hu
  cases hpress : rising s.prev (btnLevel s) with
  | true =>
    obtain ⟨_, hbtn⟩ := rising_iff.mp hpress
    simp only [leadIn, hpress, if_true] at hg hr ⊢
    refine (reaches_render_of_press hph hpress (noReset_mono hr (Nat.le_succ _))).operation hr rfl ?_ ⟨rfl, rfl⟩
    rw [exec_render_of hg]
    simp [passCycles, goTo, loadDelay, hbtn]
  | false =>
    simp only [leadIn, hpress, Bool.false_eq_true, if_false] at hg hr ⊢
    refine (reaches_render_of_no_press hph hpress (noReset_mono hr (Nat.le_succ _))).operation hr rfl ?_ ⟨rfl, rfl⟩
    exact exec_render_of hg

/-- The delay of the frame ends the iteration (40_sequencer.md R127). -/
theorem reaches_next_sample (hr : NoReset s (iterLength s (btnLevel s))) :
    Reaches (iterLength s (btnLevel s)) s (returning .none (goTo .sample (loadDelay 0 u))) := by
  have hlen := iterLength_eq hu
  exact (reaches_frame hph hu (noReset_mono hr (by omega))).delay (after := .sample) rfl hlen hr

end Frame

end Iteration

/-- Settles O38: the cycles end in the registers of `ITER`, in the phase `SAMPLE` with `DLY = 0`. -/
theorem cyclesOfAnIterationAgreeWithIter : Obligations.CyclesOfAnIterationAgreeWithIter := by
  intro s hs hph hr
  obtain ⟨u, hu, _⟩ := completesInSpace_iter hs (btnLevel s)
  obtain ⟨⟨hstim, htick⟩, hrun⟩ := reaches_next_sample hph hu hr
  exact ⟨_, u, hrun, hu, ⟨rfl, rfl, rfl, rfl⟩, rfl, rfl, rfl, congrArg (List.drop _) hstim, congrArg (· + _) htick⟩

/-- Settles O40: `ITER` takes the sampled level as its operand and reads no port, and the cycles agree with it. -/
theorem laterButtonLevelsLeaveNoTrace : Obligations.LaterButtonLevelsLeaveNoTrace := by
  intro s stim' hs hph hbtn hr hr'
  obtain ⟨u, hu, _⟩ := completesInSpace_iter hs (btnLevel s)
  have hu' : exec (.iter (btnLevel s)) { s with stim := stim' } = .next { u with stim := stim' } := by
    rw [ignoresPorts_iter, hu, mapNext_next]
  obtain ⟨_, hrun⟩ := reaches_next_sample hph hu hr
  obtain ⟨_, hrun'⟩ := reaches_next_sample (s := { s with stim := stim' }) hph (hbtn.symm ▸ hu') (hbtn.symm ▸ hr')
  rw [hbtn] at hrun'
  exact ⟨_, _, hrun, hrun', ⟨rfl, rfl, rfl, rfl⟩, ⟨rfl, rfl⟩, rfl⟩

/-! ### What the port shows -/

section Port

variable {s u : State} {k : Nat} (hph : s.ph = phaseCode .sample) (hr : NoReset s k)

include hph hr

/-- The old mask stands up to the end of the hold and the cycle that writes all off. -/
theorem port_until_advance (hpress : rising s.prev (btnLevel s) = true) (hk : k < Config.holdTicks.toNat + 3) :
    ∃ t, cycles k s = .next t ∧ outPort t = s.out := by
  cases k with
  | zero => exact ⟨s, rfl, rfl⟩
  | succ k =>
    exact (reaches_hold hph hpress (noReset_mono hr (by omega))).delay_out (after := .advance) rfl (by omega)
      (by dsimp only; omega) hr

/-- All lines are off up to the end of the settle delay and the cycle that writes the new frame. -/
theorem port_until_render (hpress : rising s.prev (btnLevel s) = true) (hlo : Config.holdTicks.toNat + 3 ≤ k)
    (hhi : k < Config.holdTicks.toNat + Config.settleTicks.toNat + 5) :
    ∃ t, cycles k s = .next t ∧ outPort t = 0x00 :=
  (reaches_settle hph hpress (noReset_mono hr hlo)).delay_out (after := .render) rfl hlo (by dsimp only; omega) hr

/-- Without a press the old mask stands until the `RENDER` that follows at once. -/
theorem port_until_render_of_no_press (hpress : rising s.prev (btnLevel s) = false) (hk : k < 2) :
    ∃ t, cycles k s = .next t ∧ outPort t = s.out := by
  obtain rfl | rfl : k = 0 ∨ k = 1 := by omega
  · exact ⟨s, rfl, rfl⟩
  · exact ⟨_, (reaches_render_of_no_press hph hpress hr).2, rfl⟩

/-- The new mask stands from the cycle of `RENDER` to the end of the iteration. -/
theorem port_after_render (hu : exec (.iter (btnLevel s)) s = .next u) (hlo : leadIn s (btnLevel s) + 1 ≤ k)
    (hhi : k ≤ iterLength s (btnLevel s)) : ∃ t, cycles k s = .next t ∧ outPort t = u.out :=
  (reaches_frame hph hu (noReset_mono hr hlo)).delay_out (after := .sample) rfl hlo
    (hhi.trans_eq (iterLength_eq hu).symm) hr

end Port

/-- Settles O39: each span of the iteration has its mask. -/
theorem outPortShowsOldThenBlankThenNewFrame : Obligations.OutPortShowsOldThenBlankThenNewFrame := by
  intro s u k _ hph hk hr hu
  split_ifs with hpress hhold hsettle hrender
  · exact port_until_advance hph hr hpress hhold
  · exact port_until_render hph hr hpress (Nat.not_lt.mp hhold) hsettle
  · exact port_after_render hph hr hu (by rw [leadIn, if_pos hpress]; exact Nat.not_lt.mp hsettle) hk
  · exact port_until_render_of_no_press hph hr (Bool.eq_false_iff.mpr hpress) hrender
  · exact port_after_render hph hr hu (by rw [leadIn, if_neg hpress]; exact Nat.not_lt.mp hrender) hk

end Sys2Proof.Machine
end
